-- ==== Sys2Proof/Word.lean ====
section
/-! DEFINITION. The word types of the block's ports (spec/00_scope.md R4, R7). -/

namespace Sys2Proof

/-- A cluster word, and the width of the operand ports A, B and F (R4, R7): 64 bits. -/
abbrev Word := BitVec 64

/-- The command word on `in.cmd` (R7, R50): 32 bits. -/
abbrev Command := BitVec 32

/-- The 32-bit pattern of a binary32 value, as a float port carries it (R7, R23). -/
abbrev FloatBits := BitVec 32

end Sys2Proof
end

