-- ==== Sys2Proof/Machine/Layouts.lean ====
section
/-! DEFINITION. The four word layouts as data: the FieldSpec tables of spec/30_encoding.md R60 to R65 and the
unusedBitsStart constants of R66. The encoders and decoders follow the pseudocode of spec/43_word_encoder.md and
spec/44_word_decoder.md; that they agree with these tables is a statement of Certificates/Slice0/Obligations.lean. -/

namespace Sys2Proof.Machine

/-- The four layouts (R3). -/
inductive Layout where
  | pf
  | v1
  | v2
  | v3
deriving DecidableEq, Repr

/-- The three signedness classes (R61, C6). -/
inductive Signedness where
  | unsigned
  | signMagnitude
  | twosComplementLike
deriving DecidableEq, Repr

/-- The named quantities of the layouts; a sign-magnitude quantity has a magnitude field and a sign field (R61, R65). -/
inductive FieldName where
  | pt | eta | phi | etaMag | etaSign | phiMag | phiSign
  | hoe | hoeFlag | iso | isoFlag | fb | timing | shapeFlag | brems
deriving DecidableEq, Repr

/-- A field: `name(width)@offset` with its class (R12, R60). -/
structure FieldSpec where
  name : FieldName
  offset : Nat
  width : Nat
  signedness : Signedness
deriving DecidableEq, Repr

/-- The fields of GCTWord-v1, and of GCTWord-v2 for encoding (R63, R64(a), C1). -/
def gctFields : List FieldSpec :=
  [⟨.pt, 0, 12, .unsigned⟩, ⟨.eta, 12, 7, .unsigned⟩, ⟨.phi, 19, 7, .unsigned⟩, ⟨.hoe, 26, 4, .unsigned⟩,
    ⟨.hoeFlag, 30, 2, .unsigned⟩, ⟨.iso, 32, 3, .unsigned⟩, ⟨.isoFlag, 35, 2, .unsigned⟩, ⟨.fb, 37, 6, .unsigned⟩,
    ⟨.timing, 43, 5, .unsigned⟩, ⟨.shapeFlag, 48, 2, .unsigned⟩, ⟨.brems, 50, 2, .unsigned⟩]

/-- The fields of a layout, low bit first (R62 to R65). -/
def Layout.fields : Layout → List FieldSpec
  | .pf =>
    [⟨.pt, 0, 12, .unsigned⟩, ⟨.eta, 12, 7, .unsigned⟩, ⟨.phi, 19, 7, .twosComplementLike⟩, ⟨.hoe, 26, 4, .unsigned⟩]
  | .v1 => gctFields
  | .v2 => gctFields
  | .v3 =>
    [⟨.pt, 0, 12, .unsigned⟩, ⟨.etaMag, 12, 7, .signMagnitude⟩, ⟨.etaSign, 19, 1, .signMagnitude⟩,
      ⟨.phiMag, 20, 6, .signMagnitude⟩, ⟨.phiSign, 26, 1, .signMagnitude⟩, ⟨.hoe, 27, 4, .unsigned⟩,
      ⟨.hoeFlag, 31, 2, .unsigned⟩, ⟨.iso, 33, 3, .unsigned⟩, ⟨.isoFlag, 36, 2, .unsigned⟩, ⟨.fb, 38, 6, .unsigned⟩,
      ⟨.timing, 44, 5, .unsigned⟩, ⟨.shapeFlag, 49, 2, .unsigned⟩, ⟨.brems, 51, 2, .unsigned⟩]

/-- unusedBitsStart, a constant of each layout; v3's lies below the end of its brems field (R66, C3). -/
def Layout.unusedBitsStart : Layout → Nat
  | .pf => 31
  | .v1 => 52
  | .v2 => 52
  | .v3 => 52

/-- Bit `k` of a word lies in the field: `[offset, offset+width)` (R12). -/
def FieldSpec.covers (f : FieldSpec) (k : Nat) : Bool := decide (f.offset ≤ k) && decide (k < f.offset + f.width)

/-- Two fields share no bit (R60). -/
def FieldSpec.disjoint (f g : FieldSpec) : Bool :=
  decide (f.offset + f.width ≤ g.offset) || decide (g.offset + g.width ≤ f.offset)

end Sys2Proof.Machine
end

