-- ==== Sys2Proof/Config.lean ====
section
/-! DEFINITION. The parameters that spec/00_scope.md R7 leaves OPEN, as constants without a body: nothing can
be proved of the value of one. -/

namespace Sys2Proof

/-- The byte order of a word that a host serialises (R7, R42). -/
inductive ByteOrder where
  | little
  | big
deriving DecidableEq, Repr, Inhabited

namespace Config

/-- `W_REGION` less one, so that `regionWidth` is any integer from 1 up (R7, D11; log 5). -/
opaque regionWidthLessOne : Nat

/-- `W_REGION`: the width of the GCTWord-v2 card/region index, an integer >= 1 (R7, D11; log 5). -/
def regionWidth : Nat := regionWidthLessOne + 1

/-- `LATENCY`: the transactions between a request and its response (R7, D18). No rule depends on it (R164), so no
other definition of the model reads it (log 2). -/
opaque latency : Nat

/-- `WORD_BYTE_ORDER` (R7, R42, D17). No operation of the block depends on it; `wordImage` of Machine/Ops.lean, a
host's serialisation, does (log 6). -/
opaque wordByteOrder : ByteOrder

/-- The sign bit of the `NAN_RESULT` drawn for the response of a given index (R7, D13, I7; log 1). -/
opaque nanSign : Nat → Bool

/-- The fraction field, less one, of the `NAN_RESULT` drawn for the response of a given index. A binary32 NaN has a
fraction from 1 to 2^23 - 1, so sign and fraction together range over exactly the NaN patterns (R7, D13, I7; log 1). -/
opaque nanFractionLessOne : Nat → Fin 8388607

end Config

/-- The type of the card/region ports `in.F.region`, `out.region` and `d.region` (R22, R23). -/
abbrev Region := BitVec Config.regionWidth

end Sys2Proof
end

