-- ==== Sys2Proof/Machine/Binary32.lean ====
section
/-! DEFINITION. IEEE 754 binary32 as spec/00_scope.md R10 takes it: the value of a pattern, rounding to nearest with ties
to even, multiply, divide and subtract. A finite value is its sign and its magnitude as a natural number of units of
2^-149, the smallest subnormal: every finite binary32 is a whole number of them, so products, quotients and differences
are exact rationals until `rne32` rounds them once (log 11). -/

namespace Sys2Proof.Machine

/-- A binary32 value. A NaN carries no payload: the pattern of a NaN result is drawn when it is written to a port
(R7 `NAN_RESULT`; log 1, log 11). -/
inductive Binary32 where
  | nan
  | inf (neg : Bool)
  | finite (neg : Bool) (units : Nat)
deriving DecidableEq, Repr

/-- The units of 2^-149 in 1. -/
def unitsOfOne : Nat := 2 ^ 149

/-- 2^128 in units of 2^-149: a rounded magnitude that reaches it is an overflow (R10). -/
def overflowUnits : Nat := 2 ^ 128 * unitsOfOne

/-- The distance, in units of 2^-149, between neighbouring binary32 magnitudes around a magnitude whose integer part is
`q` units: 1 for a subnormal, else the weight of the last of 24 significant bits, exponents taken as unbounded. -/
def spacing (q : Nat) : Nat := if q < 2 ^ 24 then 1 else 2 ^ (q.log2 - 23)

/-- `num / den` rounded to the nearest natural number, a tie to the even one. -/
def divNearestEven (num den : Nat) : Nat :=
  let q := num / den
  let r := num % den
  if 2 * r < den then q else if den < 2 * r then q + 1 else if q % 2 = 0 then q else q + 1

/-- The magnitude `num / den` (in units) rounded to 24 significant bits, ties to even. -/
def roundUnits (num den : Nat) : Nat :=
  let u := spacing (num / den)
  divNearestEven num (den * u) * u

/-- `rne32` of the number with sign `neg` and magnitude `num / den` units (R10). -/
def rne32 (neg : Bool) (num den : Nat) : Binary32 :=
  let m := roundUnits num den
  if m < overflowUnits then .finite neg m else .inf neg

/-- `f32(n)`: an integer that is exactly representable (R10). -/
def f32 (n : Nat) : Binary32 := .finite false (n * unitsOfOne)

/-- The constant 0.5 of `ptFloat` and `hwPt` (R69, R110, R133). -/
def half : Binary32 := .finite false (2 ^ 148)

/-- Is the value a NaN. -/
def Binary32.isNan : Binary32 → Bool
  | .nan => true
  | .inf _ => false
  | .finite _ _ => false

/-- `mulf`: the product rounded once; infinities and NaNs as IEEE 754 (R10; log 11). -/
def mulf : Binary32 → Binary32 → Binary32
  | .nan, _ => .nan
  | .inf _, .nan => .nan
  | .inf a, .inf b => .inf (a ^^ b)
  | .inf a, .finite b n => if n = 0 then .nan else .inf (a ^^ b)
  | .finite _ _, .nan => .nan
  | .finite a m, .inf b => if m = 0 then .nan else .inf (a ^^ b)
  | .finite a m, .finite b n => rne32 (a ^^ b) (m * n) unitsOfOne

/-- `divf`: the quotient rounded once; infinities, NaNs and a zero divisor as IEEE 754 (R10; log 11). -/
def divf : Binary32 → Binary32 → Binary32
  | .nan, _ => .nan
  | .inf _, .nan => .nan
  | .inf _, .inf _ => .nan
  | .inf a, .finite b _ => .inf (a ^^ b)
  | .finite _ _, .nan => .nan
  | .finite a _, .inf b => .finite (a ^^ b) 0
  | .finite a m, .finite b n =>
    if n = 0 then (if m = 0 then .nan else .inf (a ^^ b)) else rne32 (a ^^ b) (m * unitsOfOne) n

/-- The signed number of units of a finite value. -/
def signedUnits (neg : Bool) (units : Nat) : Int := if neg then -(units : Int) else units

/-- `subf`: the difference rounded once. A zero difference is +0, but for -0 - (+0), which is -0; infinities and NaNs as
IEEE 754 (R10; log 11). -/
def subf : Binary32 → Binary32 → Binary32
  | .nan, _ => .nan
  | .inf _, .nan => .nan
  | .inf a, .inf b => if a = b then .nan else .inf a
  | .inf a, .finite _ _ => .inf a
  | .finite _ _, .nan => .nan
  | .finite _ _, .inf b => .inf (!b)
  | .finite a m, .finite b n =>
    let x := signedUnits a m - signedUnits b n
    if x = 0 then .finite (a && !b) 0 else rne32 (decide (x < 0)) x.natAbs 1

/-- The value of a pattern: 1 sign bit, 8 exponent bits, 23 fraction bits (R10). -/
def Binary32.ofBits (p : FloatBits) : Binary32 :=
  let neg := p.getLsbD 31
  let exponent := (p.extractLsb' 23 8).toNat
  let fraction := (p.extractLsb' 0 23).toNat
  if exponent = 255 then (if fraction = 0 then .inf neg else .nan)
  else if exponent = 0 then .finite neg fraction
  else .finite neg ((2 ^ 23 + fraction) * 2 ^ (exponent - 1))

/-- The pattern with the given sign, exponent field and fraction field (R10). -/
def floatPattern (neg : Bool) (exponent fraction : Nat) : FloatBits :=
  BitVec.ofBool neg ++ BitVec.ofNat 8 exponent ++ BitVec.ofNat 23 fraction

/-- The pattern of the NaN drawn for the response of index `draw` (R7 `NAN_RESULT`, I7; log 1). -/
def nanPattern (draw : Nat) : FloatBits :=
  floatPattern (Config.nanSign draw) 255 ((Config.nanFractionLessOne draw).val + 1)

/-- `bits32(x)`: the pattern of a value (R10); for a NaN, the one drawn for the response of index `draw`. -/
def bits32 (draw : Nat) : Binary32 → FloatBits
  | .nan => nanPattern draw
  | .inf neg => floatPattern neg 255 0
  | .finite neg units =>
    if units < 2 ^ 23 then floatPattern neg 0 units
    else
      let e := units.log2 - 23
      floatPattern neg (e + 1) (units / 2 ^ e - 2 ^ 23)

end Sys2Proof.Machine
end

