-- ==== Sys2Proof/Machine/Bits.lean ====
section
/-! DEFINITION. The integer helpers of spec/00_scope.md R9 and the field operations of the source's FixedPointField
(spec/40_field_unpacker.md R80 to R82, spec/41_field_packer.md R90, spec/42_sign_magnitude.md R95, R96). Values are
mathematical integers; a word or a port narrows them. -/

namespace Sys2Proof.Machine

/-- `trunc_w(v) = v mod 2^w`, the mathematical modulo (R9). -/
def trunc (w : Nat) (v : Int) : Nat := (v % (2 : Int) ^ w).toNat

/-- `tc_w(u)`: the two's-complement reading of a w-bit pattern (R9), for w >= 1. -/
def tc (w u : Nat) : Int := if 2 ^ (w - 1) ≤ u then (u : Int) - 2 ^ w else u

/-- `s64(x) = tc_64(x)`: a 64-bit port read as a signed integer (R9). -/
def s64 (x : Word) : Int := tc 64 x.toNat

/-- `extractUnsigned(word, off, wid) = (word >> off) & (2^wid - 1)` (R80). -/
def extractUnsigned (word : Word) (off wid : Nat) : Nat := (word.toNat >>> off) &&& (2 ^ wid - 1)

/-- `smValue(sign, mag)`: sign 1 means positive (R96). -/
def smValue (sign : Bool) (mag : Nat) : Int := if sign then (mag : Int) else -(mag : Int)

/-- `extractSignMagnitude(word, off, sbp, wid)` (R81). -/
def extractSignMagnitude (word : Word) (off sbp wid : Nat) : Int :=
  smValue (word.getLsbD sbp) (extractUnsigned word off wid)

/-- `extractTwosComplementLike(word, off, wid)` (R82). -/
def extractTwosComplementLike (word : Word) (off wid : Nat) : Int := tc wid (extractUnsigned word off wid)

/-- `packUnsigned(value, wid)`: the low wid bits; higher bits are dropped silently (R90, R141). -/
def packUnsigned (value : Word) (wid : Nat) : Nat := trunc wid value.toNat

/-- `place(bits, off) = bits * 2^off` (R90). -/
def place (bits off : Nat) : Word := BitVec.ofNat 64 (bits * 2 ^ off)

/-- `packSignMagnitude(v, wid)`: the sign (1 for v > 0, so 0 for v = 0) and the truncated magnitude (R95). -/
def packSignMagnitude (v : Int) (wid : Nat) : Bool × Nat := (decide (0 < v), trunc wid v.natAbs)

/-- A one-bit value as a number, as `place` takes a sign bit (R104). -/
def bitValue (b : Bool) : Nat := if b then 1 else 0

end Sys2Proof.Machine
end

