-- ==== Sys2Proof/Machine/State.lean ====
section
/-! DEFINITION. The state of the block: the requests in flight with their input ports (spec/10_state.md R22, R31), the
output ports (R23, R24, R31) and the model's own draw index. The block has no register, no memory, no flag, no mode and
no program counter (R20, R25 to R30; spec/20_memory.md R40). -/

namespace Sys2Proof.Machine

/-- The `in.F` bundle (R22): eleven 64-bit field values and the out-of-band region index. -/
structure FieldPorts where
  pt : Word
  eta : Word
  phi : Word
  hoe : Word
  hoeFlag : Word
  iso : Word
  isoFlag : Word
  fb : Word
  timing : Word
  shapeFlag : Word
  brems : Word
  region : Region
deriving DecidableEq, Repr

/-- One request: the input ports the host drives for it (R21, R22). -/
structure Request where
  cmd : Command
  a : Word
  b : Word
  f : FieldPorts
deriving DecidableEq, Repr

/-- The `d.*` output ports, the DecodedCluster bundle (R23). `none`: the port holds no value (R24). -/
structure ClusterPorts where
  pt : Option (BitVec 12) := none
  ptFloat : Option FloatBits := none
  eta : Option (BitVec 16) := none
  phi : Option (BitVec 16) := none
  etaTC : Option (BitVec 16) := none
  phiTC : Option (BitVec 16) := none
  etaSign : Option Bool := none
  phiSign : Option Bool := none
  etaMag : Option (BitVec 7) := none
  phiMag : Option (BitVec 6) := none
  hoe : Option (BitVec 4) := none
  hoeFlag : Option (BitVec 2) := none
  iso : Option (BitVec 3) := none
  isoFlag : Option (BitVec 2) := none
  fb : Option (BitVec 6) := none
  timing : Option (BitVec 5) := none
  shapeFlag : Option (BitVec 2) := none
  brems : Option (BitVec 2) := none
  isoStandalone : Option Bool := none
  isoLooseTrack : Option Bool := none
  shapeStandalone : Option Bool := none
  shapeLooseTrack : Option Bool := none
  region : Option Region := none
deriving DecidableEq, Repr

/-- The `e.*` output ports, the emulators' object (R23). `none`: the port holds no value (R24). -/
structure EmulatorPorts where
  hwPt : Option FloatBits := none
  hwEta : Option (BitVec 16) := none
  hwPhi : Option (BitVec 16) := none
  isEmBigger : Option Bool := none
  hoeCode : Option (BitVec 3) := none
  hwEmPt : Option FloatBits := none
deriving DecidableEq, Repr

/-- The output ports of a response (R23). `none`: the port holds no value (R24). A 1-bit port is a `Bool`. -/
structure Response where
  illegal : Option Bool := none
  word : Option Word := none
  region : Option Region := none
  ival : Option (BitVec 65) := none
  sign : Option Bool := none
  mag : Option Word := none
  ok : Option Bool := none
  fval : Option FloatBits := none
  d : ClusterPorts := {}
  e : EmulatorPorts := {}
deriving DecidableEq, Repr

/-- The names of the output ports (R23). -/
inductive OutPort where
  | illegal | word | region | ival | sign | mag | ok | fval
  | dPt | dPtFloat | dEta | dPhi | dEtaTC | dPhiTC | dEtaSign | dPhiSign | dEtaMag | dPhiMag
  | dHoe | dHoeFlag | dIso | dIsoFlag | dFb | dTiming | dShapeFlag | dBrems
  | dIsoStandalone | dIsoLooseTrack | dShapeStandalone | dShapeLooseTrack | dRegion
  | eHwPt | eHwEta | eHwPhi | eIsEmBigger | eHoeCode | eHwEmPt
deriving DecidableEq, Repr

/-- Why the machine stops. No step of the block raises one: an illegal command is a response (R143, R147). -/
inductive Fault where
  /-- An output port that holds no value was read. Raised by `readPort`, the host's read of a port, as R24 demands.
  Safe: the model never gives such a read a value. -/
  | portHoldsNoValue (port : OutPort)
deriving DecidableEq, Repr

/-- Why the model gives an instruction no meaning. -/
inductive Refusal where
  /-- The instruction has no meaning in the model yet. Raised by an arm of `exec` only, and by none now. Safe: nothing
  can be proved of a next state that does not exist. -/
  | notModelled (mnemonic : String)
deriving DecidableEq, Repr

/-- The block with what surrounds one transaction (R21, R31). -/
structure State where
  /-- The requests accepted and not yet answered, oldest first (R30, R31, R165). -/
  inFlight : List Request
  /-- The output ports as the last response left them (R23, R24; log 4). -/
  out : Response
  /-- The model's own field: the index of the next response, from which the pattern of a NaN result is drawn
  (R7 `NAN_RESULT`; log 1). -/
  draws : Nat
deriving DecidableEq, Repr

/-- The block right after reset: no request in flight and no value on any output port (R31, R160). The draw index starts
at 0 (DESIGN CHOICE, log 1). -/
def State.reset : State where
  inFlight := []
  out := {}
  draws := 0

end Sys2Proof.Machine
end

