-- ==== Sys2Proof/Machine/Ops.lean ====
section
/-! DEFINITION. The shared operations over the state: answering the oldest request, the IllegalCommand response (the
block's one exception, spec/60_exceptions.md R143), writing ports, and the host's side (spec/70_reset_and_hazards.md
R160, R161, R166). The block has no memory and no registers, so there is no operation over either
(spec/20_memory.md R40, spec/10_state.md R25). -/

namespace Sys2Proof.Machine

/-- A step's outcome. -/
abbrev Result := Host.Outcome State Fault Refusal

/-- Answers the oldest request in flight: the response `f` gives from that request's ports and the draw index goes to the
output ports, the request leaves, the next response has the next draw index (R20, R21, R165; log 1). With no request in
flight the block reads no input and nothing changes (R31; log 3). -/
def answer (s : State) (f : Request → Nat → Response) : Result :=
  match s.inFlight with
  | [] => .next s
  | q :: rest => .next { inFlight := rest, out := f q s.draws, draws := s.draws + 1 }

/-- The IllegalCommand response: `out.illegal = 1` and no value on any other port (R143, R24). -/
def illegalResponse : Response := { illegal := some true }

/-- Taking the exception IllegalCommand: the response of the request that caused it says so, and nothing of the selected
operation is performed (R143, R147). Nothing is saved, so there is no return (R148). -/
def raiseIllegalCommand (s : State) : Result := answer s fun _ _ => illegalResponse

/-- Answers a command whose used fields meet their constraint; any other command raises IllegalCommand, decided before
the operands are read (R53, R146; log 8). -/
def answerLegal (ok : Bool) (s : State) (f : Request → Nat → Response) : Result :=
  if ok then answer s f else raiseIllegalCommand s

/-- A value written to an unsigned port of `n` bits. -/
def unsignedPort (n v : Nat) : Option (BitVec n) := some (BitVec.ofNat n v)

/-- A value written to a signed port of `n` bits, as two's complement (R23, D25). -/
def signedPort (n : Nat) (v : Int) : Option (BitVec n) := some (BitVec.ofInt n v)

/-- A binary32 value written to a port, in the response of index `draw`. -/
def floatPort (draw : Nat) (x : Binary32) : Option FloatBits := some (bits32 draw x)

/-- The pattern on a 1-bit port. -/
def bitPattern (b : Bool) : Nat := if b then 1 else 0

/-- The pattern an output port holds, if it holds a value (R23, R24). -/
def Response.read (r : Response) : OutPort → Option Nat
  | .illegal => r.illegal.map bitPattern
  | .word => r.word.map BitVec.toNat
  | .region => r.region.map BitVec.toNat
  | .ival => r.ival.map BitVec.toNat
  | .sign => r.sign.map bitPattern
  | .mag => r.mag.map BitVec.toNat
  | .ok => r.ok.map bitPattern
  | .fval => r.fval.map BitVec.toNat
  | .dPt => r.d.pt.map BitVec.toNat
  | .dPtFloat => r.d.ptFloat.map BitVec.toNat
  | .dEta => r.d.eta.map BitVec.toNat
  | .dPhi => r.d.phi.map BitVec.toNat
  | .dEtaTC => r.d.etaTC.map BitVec.toNat
  | .dPhiTC => r.d.phiTC.map BitVec.toNat
  | .dEtaSign => r.d.etaSign.map bitPattern
  | .dPhiSign => r.d.phiSign.map bitPattern
  | .dEtaMag => r.d.etaMag.map BitVec.toNat
  | .dPhiMag => r.d.phiMag.map BitVec.toNat
  | .dHoe => r.d.hoe.map BitVec.toNat
  | .dHoeFlag => r.d.hoeFlag.map BitVec.toNat
  | .dIso => r.d.iso.map BitVec.toNat
  | .dIsoFlag => r.d.isoFlag.map BitVec.toNat
  | .dFb => r.d.fb.map BitVec.toNat
  | .dTiming => r.d.timing.map BitVec.toNat
  | .dShapeFlag => r.d.shapeFlag.map BitVec.toNat
  | .dBrems => r.d.brems.map BitVec.toNat
  | .dIsoStandalone => r.d.isoStandalone.map bitPattern
  | .dIsoLooseTrack => r.d.isoLooseTrack.map bitPattern
  | .dShapeStandalone => r.d.shapeStandalone.map bitPattern
  | .dShapeLooseTrack => r.d.shapeLooseTrack.map bitPattern
  | .dRegion => r.d.region.map BitVec.toNat
  | .eHwPt => r.e.hwPt.map BitVec.toNat
  | .eHwEta => r.e.hwEta.map BitVec.toNat
  | .eHwPhi => r.e.hwPhi.map BitVec.toNat
  | .eIsEmBigger => r.e.isEmBigger.map bitPattern
  | .eHoeCode => r.e.hoeCode.map BitVec.toNat
  | .eHwEmPt => r.e.hwEmPt.map BitVec.toNat

/-- The host's read of an output port: its pattern, or the fault that R24 asks for when the port holds no value. -/
def readPort (s : State) (p : OutPort) : Except Fault Nat :=
  match s.out.read p with
  | some v => .ok v
  | none => .error (.portHoldsNoValue p)

/-- The host presents a request: it stands behind the requests in flight (R165, R166; log 2). -/
def State.present (s : State) (q : Request) : State := { s with inFlight := s.inFlight ++ [q] }

/-- The host asserts reset: every request in flight is dropped and no output port holds a value (R160, R161; log 9). -/
def State.resetSignal (s : State) : State := { State.reset with draws := s.draws }

/-- The byte image of a word that a host serialises, first byte first, in the order `WORD_BYTE_ORDER` (R42, D17; log 6).
The block itself moves 64 parallel bits. -/
def wordImage (w : Word) : List (BitVec 8) :=
  let bytes := (List.range 8).map fun k => w.extractLsb' (8 * k) 8
  match Config.wordByteOrder with
  | .little => bytes
  | .big => bytes.reverse

end Sys2Proof.Machine
end

