-- ==== Sys2Proof/Machine/Operands.lean ====
section
/-! DEFINITION. How an operation reads its input ports (spec/10_state.md R22). Input bits above the width an operation
reads are ignored (R22, D5). -/

namespace Sys2Proof.Machine

/-- `in.A` as a word or as the value to pack (R22). -/
def wordA (q : Request) : Word := q.a

/-- `in.A` read as a signed 64-bit integer (R95). -/
def signedA (q : Request) : Int := s64 q.a

/-- The binary32 in `in.A[31:0]` (R131, R132). -/
def floatA (q : Request) : Binary32 := .ofBits (q.a.extractLsb' 0 32)

/-- The sign bit `in.B[0]` (R96). -/
def signB (q : Request) : Bool := q.b.getLsbD 0

/-- The hoeCode `in.B[2:0]` (R131). -/
def hoeCodeB (q : Request) : Nat := (q.b.extractLsb' 0 3).toNat

/-- The H/E field `in.B[3:0]` (R132). -/
def hoeFieldB (q : Request) : BitVec 4 := q.b.extractLsb' 0 4

/-- `in.F.eta` read as a signed 64-bit integer (R104). -/
def signedEta (f : FieldPorts) : Int := s64 f.eta

/-- `in.F.phi` read as a signed 64-bit integer (R104). -/
def signedPhi (f : FieldPorts) : Int := s64 f.phi

end Sys2Proof.Machine
end

