-- ==== Sys2Proof/Machine/Flags.lean ====
section
/-! DEFINITION. The status bits that operations compute: the null-bits check (spec/44_word_decoder.md R117 to R120), the
working-point flags (R110; spec/30_encoding.md R70) and the split of the H/E field (R71). The block keeps no flag between
requests and no IEEE exception flag (spec/10_state.md R27). -/

namespace Sys2Proof.Machine

/-- `passesNullBitsCheck(w, unusedBitsStart) = ((w >> unusedBitsStart) == 0)` (R117). -/
def passesNullBitsCheck (w : Word) (unusedBitsStart : Nat) : Bool := decide (w >>> unusedBitsStart = 0)

/-- `wpFlags(x)`: the standalone and the loose-track working point of a 2-bit field (R70, R110). -/
def wpFlags (x : Nat) : Bool × Bool := (x.testBit 0, x.testBit 1)

/-- isEmBigger, bit 0 of the 4-bit H/E field (R71). -/
def isEmBigger (hoe4 : BitVec 4) : Bool := hoe4.getLsbD 0

/-- hoeCode, bits [3:1] of the 4-bit H/E field (R71). -/
def hoeCode (hoe4 : BitVec 4) : Nat := (hoe4.extractLsb' 1 3).toNat

end Sys2Proof.Machine
end

