-- ==== Sys2Proof/Machine/EnergyFraction.lean ====
section
/-! DEFINITION. The hadronic energy fraction: HE.FRAC and HE.SPLIT (spec/45_energy_fraction.md R130 to R132), and the
scaling of a pt count by its LSB (spec/30_encoding.md R69). -/

namespace Sys2Proof.Machine

/-- `ptFloat(pt) = f32(pt) * 0.5` (R69, R110); `hwPt` of the emulators is the same product (R133). -/
def ptFloat (pt : Nat) : Binary32 := mulf (f32 pt) half

/-- `fracPart(total, h)`: the product rounded to binary32, then the quotient rounded to binary32 (R130). -/
def fracPart (total : Binary32) (h : Nat) : Binary32 := divf (mulf total (f32 (2 ^ h))) (f32 (2 ^ h + 1))

/-- `emSplit(hwPt, hoe4)`: the two-branch split (R132). -/
def emSplit (hwPt : Binary32) (hoe4 : BitVec 4) : Binary32 :=
  if isEmBigger hoe4 then fracPart hwPt (hoeCode hoe4) else subf hwPt (fracPart hwPt (hoeCode hoe4))

/-- HE.FRAC (R131). -/
def execHeFrac (s : State) : Result :=
  answer s fun q draw => { illegal := some false, fval := floatPort draw (fracPart (floatA q) (hoeCodeB q)) }

/-- HE.SPLIT (R132). -/
def execHeSplit (s : State) : Result :=
  answer s fun q draw => { illegal := some false, fval := floatPort draw (emSplit (floatA q) (hoeFieldB q)) }

end Sys2Proof.Machine
end

