-- ==== Sys2Proof/Machine/Decoder.lean ====
section
/-! DEFINITION. The cluster word decoder: DEC.PF, DEC.V1, DEC.V2 and DEC.V3 (spec/44_word_decoder.md R110 to R115). A
decoder reads the field bits of its layout and nothing else, and never refuses a word (R115). -/

namespace Sys2Proof.Machine

/-- The `d.*` ports of DEC.PF (R111). -/
def decodePf (w : Word) (draw : Nat) : ClusterPorts :=
  let pt := extractUnsigned w 0 12
  { pt := unsignedPort 12 pt
    ptFloat := floatPort draw (ptFloat pt)
    eta := signedPort 16 (extractUnsigned w 12 7)
    phi := signedPort 16 (extractTwosComplementLike w 19 7)
    hoe := unsignedPort 4 (extractUnsigned w 26 4) }

/-- `decodeGctCommon(w)`: the ports DEC.V1 and DEC.V2 write alike (R112). -/
def decodeGctCommon (w : Word) (draw : Nat) : ClusterPorts :=
  let pt := extractUnsigned w 0 12
  let isoFlag := extractUnsigned w 35 2
  let shapeFlag := extractUnsigned w 48 2
  { pt := unsignedPort 12 pt
    ptFloat := floatPort draw (ptFloat pt)
    phi := signedPort 16 (extractUnsigned w 19 7)
    phiTC := signedPort 16 (extractTwosComplementLike w 19 7)
    hoe := unsignedPort 4 (extractUnsigned w 26 4)
    hoeFlag := unsignedPort 2 (extractUnsigned w 30 2)
    iso := unsignedPort 3 (extractUnsigned w 32 3)
    isoFlag := unsignedPort 2 isoFlag
    fb := unsignedPort 6 (extractUnsigned w 37 6)
    timing := unsignedPort 5 (extractUnsigned w 43 5)
    shapeFlag := unsignedPort 2 shapeFlag
    brems := unsignedPort 2 (extractUnsigned w 50 2)
    isoStandalone := some (wpFlags isoFlag).1
    isoLooseTrack := some (wpFlags isoFlag).2
    shapeStandalone := some (wpFlags shapeFlag).1
    shapeLooseTrack := some (wpFlags shapeFlag).2 }

/-- The `d.*` ports of DEC.V1: the angles as unsigned values, and their two's-complement-like readings (R112, C8). -/
def decodeV1 (w : Word) (draw : Nat) : ClusterPorts :=
  { decodeGctCommon w draw with
    eta := signedPort 16 (extractUnsigned w 12 7)
    etaTC := signedPort 16 (extractTwosComplementLike w 12 7) }

/-- The `d.*` ports of DEC.V2: eta through the 8-bit window [19:12], the region index passed through (R113, C7). -/
def decodeV2 (w : Word) (region : Region) (draw : Nat) : ClusterPorts :=
  { decodeGctCommon w draw with
    eta := signedPort 16 (extractUnsigned w 12 8)
    etaTC := signedPort 16 (extractTwosComplementLike w 12 8)
    region := some region }

/-- The `d.*` ports of DEC.V3 (R114). -/
def decodeV3 (w : Word) (draw : Nat) : ClusterPorts :=
  let pt := extractUnsigned w 0 12
  let isoFlag := extractUnsigned w 36 2
  let shapeFlag := extractUnsigned w 49 2
  { pt := unsignedPort 12 pt
    ptFloat := floatPort draw (ptFloat pt)
    etaMag := unsignedPort 7 (extractUnsigned w 12 7)
    etaSign := some (w.getLsbD 19)
    phiMag := unsignedPort 6 (extractUnsigned w 20 6)
    phiSign := some (w.getLsbD 26)
    eta := signedPort 16 (extractSignMagnitude w 12 19 7)
    phi := signedPort 16 (extractSignMagnitude w 20 26 6)
    hoe := unsignedPort 4 (extractUnsigned w 27 4)
    hoeFlag := unsignedPort 2 (extractUnsigned w 31 2)
    iso := unsignedPort 3 (extractUnsigned w 33 3)
    isoFlag := unsignedPort 2 isoFlag
    fb := unsignedPort 6 (extractUnsigned w 38 6)
    timing := unsignedPort 5 (extractUnsigned w 44 5)
    shapeFlag := unsignedPort 2 shapeFlag
    brems := unsignedPort 2 (extractUnsigned w 51 2)
    isoStandalone := some (wpFlags isoFlag).1
    isoLooseTrack := some (wpFlags isoFlag).2
    shapeStandalone := some (wpFlags shapeFlag).1
    shapeLooseTrack := some (wpFlags shapeFlag).2 }

/-- DEC.PF (R111). -/
def execDecPf (s : State) : Result :=
  answer s fun q draw => { illegal := some false, d := decodePf (wordA q) draw }

/-- DEC.V1 (R112). -/
def execDecV1 (s : State) : Result :=
  answer s fun q draw => { illegal := some false, d := decodeV1 (wordA q) draw }

/-- DEC.V2 (R113). -/
def execDecV2 (s : State) : Result :=
  answer s fun q draw => { illegal := some false, d := decodeV2 (wordA q) q.f.region draw }

/-- DEC.V3 (R114). -/
def execDecV3 (s : State) : Result :=
  answer s fun q draw => { illegal := some false, d := decodeV3 (wordA q) draw }

end Sys2Proof.Machine
end

