-- ==== Sys2Proof/Machine/Emulator.lean ====
section
/-! DEFINITION. The decoder emulators, steps 1 to 4: EMU.EM and EMU.HAD (spec/45_energy_fraction.md R133, R134). The word
is read with the GCTWord-v3 layout (D15). Step 5 is outside the block (R136). -/

namespace Sys2Proof.Machine

/-- `emuCommon(w)`: hwPt, hwEta and hwPhi (R133). -/
def emuCommon (w : Word) (draw : Nat) : EmulatorPorts :=
  { hwPt := floatPort draw (ptFloat (extractUnsigned w 0 12))
    hwEta := signedPort 16 (extractSignMagnitude w 12 19 7 * 4)
    hwPhi := signedPort 16 (extractSignMagnitude w 20 26 6 * 4) }

/-- The 4-bit H/E field, word bits [30:27] (R71, R134). -/
def hoeField (w : Word) : BitVec 4 := BitVec.ofNat 4 (extractUnsigned w 27 4)

/-- The `e.*` ports of EMU.HAD (R134). -/
def emuHad (w : Word) (draw : Nat) : EmulatorPorts :=
  { emuCommon w draw with
    isEmBigger := some (isEmBigger (hoeField w))
    hoeCode := unsignedPort 3 (hoeCode (hoeField w))
    hwEmPt := floatPort draw (emSplit (ptFloat (extractUnsigned w 0 12)) (hoeField w)) }

/-- EMU.EM (R133). -/
def execEmuEm (s : State) : Result :=
  answer s fun q draw => { illegal := some false, e := emuCommon (wordA q) draw }

/-- EMU.HAD (R134). -/
def execEmuHad (s : State) : Result :=
  answer s fun q draw => { illegal := some false, e := emuHad (wordA q) draw }

end Sys2Proof.Machine
end

