-- ==== Sys2Proof/Machine/Encoder.lean ====
section
/-! DEFINITION. The cluster word encoder: ENC.PF, ENC.V1, ENC.V2, ENC.V3 and ZERO (spec/43_word_encoder.md). -/

namespace Sys2Proof.Machine

/-- The PFCrystalWord of the field inputs (R62, R101). -/
def encodePf (f : FieldPorts) : Word :=
  place (packUnsigned f.pt 12) 0
    ||| place (packUnsigned f.eta 7) 12
    ||| place (packUnsigned f.phi 7) 19
    ||| place (packUnsigned f.hoe 4) 26

/-- `encodeV1(F)`: the GCTWord-v1 of the field inputs, which is GCTWord-v2's word too (R63, R102, R103). -/
def encodeV1 (f : FieldPorts) : Word :=
  place (packUnsigned f.pt 12) 0
    ||| place (packUnsigned f.eta 7) 12
    ||| place (packUnsigned f.phi 7) 19
    ||| place (packUnsigned f.hoe 4) 26
    ||| place (packUnsigned f.hoeFlag 2) 30
    ||| place (packUnsigned f.iso 3) 32
    ||| place (packUnsigned f.isoFlag 2) 35
    ||| place (packUnsigned f.fb 6) 37
    ||| place (packUnsigned f.timing 5) 43
    ||| place (packUnsigned f.shapeFlag 2) 48
    ||| place (packUnsigned f.brems 2) 50

/-- The GCTWord-v3 of the field inputs (R65, R104). -/
def encodeV3 (f : FieldPorts) : Word :=
  let eta := packSignMagnitude (signedEta f) 7
  let phi := packSignMagnitude (signedPhi f) 6
  place (packUnsigned f.pt 12) 0
    ||| place eta.2 12
    ||| place (bitValue eta.1) 19
    ||| place phi.2 20
    ||| place (bitValue phi.1) 26
    ||| place (packUnsigned f.hoe 4) 27
    ||| place (packUnsigned f.hoeFlag 2) 31
    ||| place (packUnsigned f.iso 3) 33
    ||| place (packUnsigned f.isoFlag 2) 36
    ||| place (packUnsigned f.fb 6) 38
    ||| place (packUnsigned f.timing 5) 44
    ||| place (packUnsigned f.shapeFlag 2) 49
    ||| place (packUnsigned f.brems 2) 51

/-- ENC.PF (R101). -/
def execEncPf (s : State) : Result :=
  answer s fun q _ => { illegal := some false, word := some (encodePf q.f) }

/-- ENC.V1 (R102). -/
def execEncV1 (s : State) : Result :=
  answer s fun q _ => { illegal := some false, word := some (encodeV1 q.f) }

/-- ENC.V2: v1's word, and the region index passed through out of band (R103). -/
def execEncV2 (s : State) : Result :=
  answer s fun q _ => { illegal := some false, word := some (encodeV1 q.f), region := some q.f.region }

/-- ENC.V3 (R104). -/
def execEncV3 (s : State) : Result :=
  answer s fun q _ => { illegal := some false, word := some (encodeV3 q.f) }

/-- ZERO: the canonical zero word (R105). -/
def execZero (s : State) : Result :=
  answer s fun _ _ => { illegal := some false, word := some 0 }

end Sys2Proof.Machine
end

