-- ==== Sys2Proof/Syntax.lean ====
section
/-! DEFINITION. The 23 operations of spec/30_encoding.md R52, one constructor per row of the opcode table, with the
command fields each uses, and the assembler spelling of R55. -/

namespace Sys2Proof

/-- The OFF and SBP fields of a command: a bit position, 0 to 63 (R50). -/
abbrev Position := BitVec 6

/-- The WID field of a command: a width, 0 to 127 (R50). -/
abbrev WidthField := BitVec 7

/-- An operation with the command fields it uses, in the order OFF, WID, SBP (R52, R55). -/
inductive Instr where
  | fpExtu (off : Position) (wid : WidthField)
  | fpExtsm (off : Position) (wid : WidthField) (sbp : Position)
  | fpExttc (off : Position) (wid : WidthField)
  | fpPacku (off : Position) (wid : WidthField)
  | smEnc (wid : WidthField)
  | smDec (wid : WidthField)
  | encPf
  | encV1
  | encV2
  | encV3
  | decPf
  | decV1
  | decV2
  | decV3
  | chkPf
  | chkV1
  | chkV2
  | chkV3
  | zero
  | heFrac
  | heSplit
  | emuEm
  | emuHad
deriving DecidableEq, Repr

/-- The mnemonic of an operation (R52). -/
def Instr.mnemonic : Instr → String
  | .fpExtu _ _ => "FP.EXTU"
  | .fpExtsm _ _ _ => "FP.EXTSM"
  | .fpExttc _ _ => "FP.EXTTC"
  | .fpPacku _ _ => "FP.PACKU"
  | .smEnc _ => "SM.ENC"
  | .smDec _ => "SM.DEC"
  | .encPf => "ENC.PF"
  | .encV1 => "ENC.V1"
  | .encV2 => "ENC.V2"
  | .encV3 => "ENC.V3"
  | .decPf => "DEC.PF"
  | .decV1 => "DEC.V1"
  | .decV2 => "DEC.V2"
  | .decV3 => "DEC.V3"
  | .chkPf => "CHK.PF"
  | .chkV1 => "CHK.V1"
  | .chkV2 => "CHK.V2"
  | .chkV3 => "CHK.V3"
  | .zero => "ZERO"
  | .heFrac => "HE.FRAC"
  | .heSplit => "HE.SPLIT"
  | .emuEm => "EMU.EM"
  | .emuHad => "EMU.HAD"

/-- The used fields of a command as numbers, in the order OFF, WID, SBP (R51, R55). -/
def Instr.usedFields : Instr → List Nat
  | .fpExtu off wid => [off.toNat, wid.toNat]
  | .fpExtsm off wid sbp => [off.toNat, wid.toNat, sbp.toNat]
  | .fpExttc off wid => [off.toNat, wid.toNat]
  | .fpPacku off wid => [off.toNat, wid.toNat]
  | .smEnc wid => [wid.toNat]
  | .smDec wid => [wid.toNat]
  | .encPf => []
  | .encV1 => []
  | .encV2 => []
  | .encV3 => []
  | .decPf => []
  | .decV1 => []
  | .decV2 => []
  | .decV3 => []
  | .chkPf => []
  | .chkV1 => []
  | .chkV2 => []
  | .chkV3 => []
  | .zero => []
  | .heFrac => []
  | .heSplit => []
  | .emuEm => []
  | .emuHad => []

/-- The assembler spelling of a command: the mnemonic, then the used fields as decimal numbers separated by commas
(R55; log 16). -/
def Instr.asm (i : Instr) : String :=
  match i.usedFields with
  | [] => i.mnemonic
  | fs => i.mnemonic ++ " " ++ String.intercalate ", " (fs.map toString)

end Sys2Proof
end

