-- ==== Sys2Proof/WellFormed.lean ====
section
/-! DEFINITION. Condition (4) of the legality test, spec/30_encoding.md R53: the constraint each operation puts on the
fields it uses. Conditions (1) to (3) speak of the command word alone and are the decoder's (Decode.lean; log 8). -/

namespace Sys2Proof

/-- The field lies inside the 64-bit word: off + wid <= 64 (R43, R53). -/
def fieldInWord (off : Position) (wid : WidthField) : Bool :=
  decide (off.toNat + wid.toNat ≤ 64)

/-- The sign bit lies outside the magnitude: sbp is not in [off, off+wid) (R53). -/
def signOutsideMagnitude (off : Position) (wid : WidthField) (sbp : Position) : Bool :=
  !(decide (off.toNat ≤ sbp.toNat) && decide (sbp.toNat < off.toNat + wid.toNat))

/-- The width is at least 1 (R53, FP.EXTTC). -/
def widthPositive (wid : WidthField) : Bool :=
  decide (1 ≤ wid.toNat)

/-- The width is at most 64 (R53, SM.ENC and SM.DEC). -/
def widthAtMostWord (wid : WidthField) : Bool :=
  decide (wid.toNat ≤ 64)

/-- Condition (4) of R53. Every operation but the FP and SM ones has no constraint. -/
def Instr.wellFormed : Instr → Bool
  | .fpExtu off wid => fieldInWord off wid
  | .fpExtsm off wid sbp => fieldInWord off wid && signOutsideMagnitude off wid sbp
  | .fpExttc off wid => widthPositive wid && fieldInWord off wid
  | .fpPacku off wid => fieldInWord off wid
  | .smEnc wid => widthAtMostWord wid
  | .smDec wid => widthAtMostWord wid
  | .encPf => true
  | .encV1 => true
  | .encV2 => true
  | .encV3 => true
  | .decPf => true
  | .decV1 => true
  | .decV2 => true
  | .decV3 => true
  | .chkPf => true
  | .chkV1 => true
  | .chkV2 => true
  | .chkV3 => true
  | .zero => true
  | .heFrac => true
  | .heSplit => true
  | .emuEm => true
  | .emuHad => true

end Sys2Proof
end

