-- ==== Sys2Proof/Machine/FieldPacker.lean ====
section
/-! DEFINITION. The fixed-point field packer: FP.PACKU (spec/41_field_packer.md). -/

namespace Sys2Proof.Machine

/-- FP.PACKU: pack, then place at the offset (R90). -/
def execFpPacku (off : Position) (wid : WidthField) (s : State) : Result :=
  answerLegal (Instr.fpPacku off wid).wellFormed s fun q _ =>
    { illegal := some false
      word := some (place (packUnsigned (wordA q) wid.toNat) off.toNat) }

end Sys2Proof.Machine
end

