-- ==== Sys2Proof/Machine/FieldUnpacker.lean ====
section
/-! DEFINITION. The fixed-point field unpacker: FP.EXTU, FP.EXTSM and FP.EXTTC (spec/40_field_unpacker.md). -/

namespace Sys2Proof.Machine

/-- FP.EXTU (R80). -/
def execFpExtu (off : Position) (wid : WidthField) (s : State) : Result :=
  answerLegal (Instr.fpExtu off wid).wellFormed s fun q _ =>
    { illegal := some false
      ival := signedPort 65 (extractUnsigned (wordA q) off.toNat wid.toNat) }

/-- FP.EXTSM (R81). -/
def execFpExtsm (off : Position) (wid : WidthField) (sbp : Position) (s : State) : Result :=
  answerLegal (Instr.fpExtsm off wid sbp).wellFormed s fun q _ =>
    { illegal := some false
      ival := signedPort 65 (extractSignMagnitude (wordA q) off.toNat sbp.toNat wid.toNat) }

/-- FP.EXTTC (R82). -/
def execFpExttc (off : Position) (wid : WidthField) (s : State) : Result :=
  answerLegal (Instr.fpExttc off wid).wellFormed s fun q _ =>
    { illegal := some false
      ival := signedPort 65 (extractTwosComplementLike (wordA q) off.toNat wid.toNat) }

end Sys2Proof.Machine
end

