-- ==== Sys2Proof/Machine/NullBits.lean ====
section
/-! DEFINITION. The null-bits check of each layout: CHK.PF, CHK.V1, CHK.V2 and CHK.V3 (spec/44_word_decoder.md R117 to
R120). `out.ok = 0` is the one sign of a malformed word (spec/60_exceptions.md R140). -/

namespace Sys2Proof.Machine

/-- The response of a null-bits check against a layout's unusedBitsStart (R66, R117). -/
def nullBitsResponse (l : Layout) (q : Request) : Response :=
  { illegal := some false, ok := some (passesNullBitsCheck (wordA q) l.unusedBitsStart) }

/-- CHK.PF (R117). -/
def execChkPf (s : State) : Result := answer s fun q _ => nullBitsResponse .pf q

/-- CHK.V1 (R118). -/
def execChkV1 (s : State) : Result := answer s fun q _ => nullBitsResponse .v1 q

/-- CHK.V2 (R119). -/
def execChkV2 (s : State) : Result := answer s fun q _ => nullBitsResponse .v2 q

/-- CHK.V3 (R120). -/
def execChkV3 (s : State) : Result := answer s fun q _ => nullBitsResponse .v3 q

end Sys2Proof.Machine
end

