-- ==== Sys2Proof/Machine/SignMagnitude.lean ====
section
/-! DEFINITION. The sign-magnitude converter: SM.ENC and SM.DEC (spec/42_sign_magnitude.md). -/

namespace Sys2Proof.Machine

/-- SM.ENC (R95). -/
def execSmEnc (wid : WidthField) (s : State) : Result :=
  answerLegal (Instr.smEnc wid).wellFormed s fun q _ =>
    let packed := packSignMagnitude (signedA q) wid.toNat
    { illegal := some false
      sign := some packed.1
      mag := unsignedPort 64 packed.2 }

/-- SM.DEC (R96). -/
def execSmDec (wid : WidthField) (s : State) : Result :=
  answerLegal (Instr.smDec wid).wellFormed s fun q _ =>
    { illegal := some false
      ival := signedPort 65 (smValue (signB q) (packUnsigned (wordA q) wid.toNat)) }

end Sys2Proof.Machine
end

