-- ==== Sys2Proof/Machine/Dispatch.lean ====
section
/-! DEFINITION. The meaning of each operation of the opcode map (spec/30_encoding.md R52), one arm per operation. -/

namespace Sys2Proof.Machine

def exec (i : Instr) (s : State) : Host.Outcome State Fault Refusal :=
  match i with
  | .fpExtu off wid => Sys2Proof.Machine.execFpExtu off wid s
  | .fpExtsm off wid sbp => Sys2Proof.Machine.execFpExtsm off wid sbp s
  | .fpExttc off wid => Sys2Proof.Machine.execFpExttc off wid s
  | .fpPacku off wid => Sys2Proof.Machine.execFpPacku off wid s
  | .smEnc wid => Sys2Proof.Machine.execSmEnc wid s
  | .smDec wid => Sys2Proof.Machine.execSmDec wid s
  | .encPf => Sys2Proof.Machine.execEncPf s
  | .encV1 => Sys2Proof.Machine.execEncV1 s
  | .encV2 => Sys2Proof.Machine.execEncV2 s
  | .encV3 => Sys2Proof.Machine.execEncV3 s
  | .decPf => Sys2Proof.Machine.execDecPf s
  | .decV1 => Sys2Proof.Machine.execDecV1 s
  | .decV2 => Sys2Proof.Machine.execDecV2 s
  | .decV3 => Sys2Proof.Machine.execDecV3 s
  | .chkPf => Sys2Proof.Machine.execChkPf s
  | .chkV1 => Sys2Proof.Machine.execChkV1 s
  | .chkV2 => Sys2Proof.Machine.execChkV2 s
  | .chkV3 => Sys2Proof.Machine.execChkV3 s
  | .zero => Sys2Proof.Machine.execZero s
  | .heFrac => Sys2Proof.Machine.execHeFrac s
  | .heSplit => Sys2Proof.Machine.execHeSplit s
  | .emuEm => Sys2Proof.Machine.execEmuEm s
  | .emuHad => Sys2Proof.Machine.execEmuHad s

end Sys2Proof.Machine
end

