-- ==== Sys2Proof/Decode.lean ====
section
/-! DEFINITION. The command word: its five fields (spec/30_encoding.md R50, R51), the decoder, which decides conditions
(1) to (3) of R53 and rejects by name, the legality test of R53 as the spec writes it, and the encoder (R55). -/

namespace Sys2Proof

/-- OP, bits [4:0] (R50). -/
def cmdOp (cmd : Command) : BitVec 5 := cmd.extractLsb' 0 5

/-- OFF, bits [10:5] (R50, R51). -/
def cmdOff (cmd : Command) : Position := cmd.extractLsb' 5 6

/-- WID, bits [17:11] (R50, R51). -/
def cmdWid (cmd : Command) : WidthField := cmd.extractLsb' 11 7

/-- SBP, bits [23:18] (R50, R51). -/
def cmdSbp (cmd : Command) : Position := cmd.extractLsb' 18 6

/-- RSV, bits [31:24] (R50). -/
def cmdRsv (cmd : Command) : BitVec 8 := cmd.extractLsb' 24 8

/-- Why a command word is no row of the opcode table (R54). -/
inductive DecodeError where
  /-- RSV is not zero: condition (2) of R53. -/
  | reservedBitsSet (rsv : BitVec 8)
  /-- OP is not an assigned code: condition (1) of R53. -/
  | unassignedOp (op : BitVec 5)
  /-- A field that the operation does not use is not zero: condition (3) of R53. -/
  | unusedFieldSet
deriving DecidableEq, Repr

/-- The command of an operation that uses OFF and WID: SBP must be zero (R52, R53). -/
def usesOffWid (cmd : Command) (i : Position → WidthField → Instr) : Except DecodeError Instr :=
  if cmdSbp cmd = 0 then .ok (i (cmdOff cmd) (cmdWid cmd)) else .error .unusedFieldSet

/-- The command of an operation that uses WID: OFF and SBP must be zero (R52, R53). -/
def usesWid (cmd : Command) (i : WidthField → Instr) : Except DecodeError Instr :=
  if cmdOff cmd = 0 ∧ cmdSbp cmd = 0 then .ok (i (cmdWid cmd)) else .error .unusedFieldSet

/-- The command of an operation that uses no field: OFF, WID and SBP must be zero (R52, R53). -/
def usesNone (cmd : Command) (i : Instr) : Except DecodeError Instr :=
  if cmdOff cmd = 0 ∧ cmdWid cmd = 0 ∧ cmdSbp cmd = 0 then .ok i else .error .unusedFieldSet

/-- The operation that a command word names, with its fields (R52), or the reason it names none. -/
def decode (cmd : Command) : Except DecodeError Instr :=
  if cmdRsv cmd ≠ 0 then .error (.reservedBitsSet (cmdRsv cmd))
  else
    match (cmdOp cmd).toNat with
    | 0x00 => usesOffWid cmd .fpExtu
    | 0x01 => .ok (.fpExtsm (cmdOff cmd) (cmdWid cmd) (cmdSbp cmd))
    | 0x02 => usesOffWid cmd .fpExttc
    | 0x03 => usesOffWid cmd .fpPacku
    | 0x04 => usesWid cmd .smEnc
    | 0x05 => usesWid cmd .smDec
    | 0x08 => usesNone cmd .encPf
    | 0x09 => usesNone cmd .encV1
    | 0x0A => usesNone cmd .encV2
    | 0x0B => usesNone cmd .encV3
    | 0x0C => usesNone cmd .decPf
    | 0x0D => usesNone cmd .decV1
    | 0x0E => usesNone cmd .decV2
    | 0x0F => usesNone cmd .decV3
    | 0x10 => usesNone cmd .chkPf
    | 0x11 => usesNone cmd .chkV1
    | 0x12 => usesNone cmd .chkV2
    | 0x13 => usesNone cmd .chkV3
    | 0x14 => usesNone cmd .zero
    | 0x18 => usesNone cmd .heFrac
    | 0x19 => usesNone cmd .heSplit
    | 0x1A => usesNone cmd .emuEm
    | 0x1B => usesNone cmd .emuHad
    | _ => .error (.unassignedOp (cmdOp cmd))

/-- The legality test, as the pseudocode of R53 states it. The model runs `decode` and `Instr.wellFormed` instead; that
the two agree is a statement of Certificates/Slice0/Obligations.lean. -/
def legal (cmd : Command) : Bool :=
  let op := (cmdOp cmd).toNat
  let off := (cmdOff cmd).toNat
  let wid := (cmdWid cmd).toNat
  let sbp := (cmdSbp cmd).toNat
  if cmdRsv cmd ≠ 0 then false
  else if op = 0x00 ∨ op = 0x02 ∨ op = 0x03 then
    decide (sbp = 0 ∧ off + wid ≤ 64 ∧ (op ≠ 0x02 ∨ 1 ≤ wid))
  else if op = 0x01 then decide (off + wid ≤ 64 ∧ ¬(off ≤ sbp ∧ sbp < off + wid))
  else if op = 0x04 ∨ op = 0x05 then decide (off = 0 ∧ sbp = 0 ∧ wid ≤ 64)
  else if (0x08 ≤ op ∧ op ≤ 0x14) ∨ (0x18 ≤ op ∧ op ≤ 0x1B) then
    decide (off = 0 ∧ wid = 0 ∧ sbp = 0)
  else false

/-- The command word with the given OP, OFF, WID and SBP and RSV = 0, laid out as R50 draws it. -/
def commandWord (op : BitVec 5) (off : Position) (wid : WidthField) (sbp : Position) : Command :=
  (0 : BitVec 8) ++ sbp ++ wid ++ off ++ op

/-- The command word of an operation (R50, R52, R55). -/
def encode : Instr → Command
  | .fpExtu off wid => commandWord 0x00 off wid 0
  | .fpExtsm off wid sbp => commandWord 0x01 off wid sbp
  | .fpExttc off wid => commandWord 0x02 off wid 0
  | .fpPacku off wid => commandWord 0x03 off wid 0
  | .smEnc wid => commandWord 0x04 0 wid 0
  | .smDec wid => commandWord 0x05 0 wid 0
  | .encPf => commandWord 0x08 0 0 0
  | .encV1 => commandWord 0x09 0 0 0
  | .encV2 => commandWord 0x0A 0 0 0
  | .encV3 => commandWord 0x0B 0 0 0
  | .decPf => commandWord 0x0C 0 0 0
  | .decV1 => commandWord 0x0D 0 0 0
  | .decV2 => commandWord 0x0E 0 0 0
  | .decV3 => commandWord 0x0F 0 0 0
  | .chkPf => commandWord 0x10 0 0 0
  | .chkV1 => commandWord 0x11 0 0 0
  | .chkV2 => commandWord 0x12 0 0 0
  | .chkV3 => commandWord 0x13 0 0 0
  | .zero => commandWord 0x14 0 0 0
  | .heFrac => commandWord 0x18 0 0 0
  | .heSplit => commandWord 0x19 0 0 0
  | .emuEm => commandWord 0x1A 0 0 0
  | .emuHad => commandWord 0x1B 0 0 0

/-- The command word whose low `nbits` bits are those of `w`, every bit above them zero. -/
def tableCommand (nbits w : Nat) : Command := BitVec.ofNat 32 (w % 2 ^ nbits)

/-- The instruction the decoder reads from an instruction whose bits are `w`. A command arrives as 32 parallel bits on
`in.cmd` (R42, R50), so there is no byte order to choose. -/
def decodeTableWord (nbits w : Nat) : Option Instr := (decode (tableCommand nbits w)).toOption

end Sys2Proof
end

