-- ==== Sys2Proof/Machine/Fetch.lean ====
section
/-! DEFINITION. Where the next command stands: on `in.cmd` of the oldest request in flight (spec/20_memory.md R48,
spec/10_state.md R21). The block fetches from no memory. -/

namespace Sys2Proof.Machine

/-- The command of the oldest request in flight. -/
def State.nextCommand? (s : State) : Option Command := s.inFlight.head?.map Request.cmd

/-- The request that stands in for the host's when a command is placed with no request in flight: every operand port zero
(log 7). -/
def bareRequest (cmd : Command) : Request where
  cmd := cmd
  a := 0
  b := 0
  f :=
    { pt := 0, eta := 0, phi := 0, hoe := 0, hoeFlag := 0, iso := 0, isoFlag := 0, fb := 0, timing := 0,
      shapeFlag := 0, brems := 0, region := 0 }

/-- The requests in flight with the oldest one's command replaced, or one bare request where none is in flight. -/
def placeCommand (cmd : Command) : List Request → List Request
  | [] => [bareRequest cmd]
  | q :: rest => { q with cmd := cmd } :: rest

end Sys2Proof.Machine
end

