-- ==== Sys2Proof/Machine/Step.lean ====
section
/-! DEFINITION. One step of the block: the answer to the oldest request in flight (spec/10_state.md R21,
spec/70_reset_and_hazards.md R165). -/

namespace Sys2Proof.Machine

/-- Answers the oldest request: the operation its command names (R52), or IllegalCommand where it names none (R53, R54,
R143). With no request in flight nothing changes (R31; log 3). -/
def step (s : State) : Host.Outcome State Fault Refusal :=
  match s.nextCommand? with
  | none => .next s
  | some cmd =>
    match decode cmd with
    | .ok i => exec i s
    | .error _ => raiseIllegalCommand s

/-- The instruction with bits `w` on `in.cmd` of the request that the next step answers. Where a request is in flight its
operands stand; where none is, the request's operand ports are zero (log 7). -/
def State.withFetchWord (s : State) (nbits w : Nat) : State :=
  { s with inFlight := placeCommand (tableCommand nbits w) s.inFlight }

end Sys2Proof.Machine
end

