-- ==== Sys2Proof/Safety.lean ====
section
/-! DEFINITION. The terms in which statements about the block are made: the answer to a request, which ports an operation
writes (spec/10_state.md R23), which responses are well shaped, and what the fields of a layout hold. -/

namespace Sys2Proof.Machine

/-- The state after the oldest request is answered with `r`: the later requests stay in flight, every output port is as
`r` says, and the model's draw index moves on by one (R21, R24, R165). -/
def State.answered (s : State) (rest : List Request) (r : Response) : State where
  inFlight := rest
  out := r
  draws := s.draws + 1

/-- The ports every decoder writes (R23). -/
def decoderPorts : List OutPort := [.illegal, .dPt, .dPtFloat, .dEta, .dPhi, .dHoe]

/-- The ports every GCT decoder writes beside `decoderPorts` (R23). -/
def gctPorts : List OutPort :=
  [.dHoeFlag, .dIso, .dIsoFlag, .dFb, .dTiming, .dShapeFlag, .dBrems, .dIsoStandalone, .dIsoLooseTrack,
    .dShapeStandalone, .dShapeLooseTrack]

/-- The output ports an operation writes: the column "written by" of R23. -/
def writtenPorts : Instr → List OutPort
  | .fpExtu _ _ => [.illegal, .ival]
  | .fpExtsm _ _ _ => [.illegal, .ival]
  | .fpExttc _ _ => [.illegal, .ival]
  | .fpPacku _ _ => [.illegal, .word]
  | .smEnc _ => [.illegal, .sign, .mag]
  | .smDec _ => [.illegal, .ival]
  | .encPf => [.illegal, .word]
  | .encV1 => [.illegal, .word]
  | .encV2 => [.illegal, .word, .region]
  | .encV3 => [.illegal, .word]
  | .decPf => decoderPorts
  | .decV1 => decoderPorts ++ gctPorts ++ [.dEtaTC, .dPhiTC]
  | .decV2 => decoderPorts ++ gctPorts ++ [.dEtaTC, .dPhiTC, .dRegion]
  | .decV3 => decoderPorts ++ gctPorts ++ [.dEtaSign, .dPhiSign, .dEtaMag, .dPhiMag]
  | .chkPf => [.illegal, .ok]
  | .chkV1 => [.illegal, .ok]
  | .chkV2 => [.illegal, .ok]
  | .chkV3 => [.illegal, .ok]
  | .zero => [.illegal, .word]
  | .heFrac => [.illegal, .fval]
  | .heSplit => [.illegal, .fval]
  | .emuEm => [.illegal, .eHwPt, .eHwEta, .eHwPhi]
  | .emuHad => [.illegal, .eHwPt, .eHwEta, .eHwPhi, .eIsEmBigger, .eHoeCode, .eHwEmPt]

/-- The operation `i`, whose code is `op` and which uses no command field, runs on the one command that is its code with
every other bit 0; every other command with that code is illegal (R53). -/
def State.runsOnlyOn (s : State) (q : Request) (rest : List Request) (op : BitVec 5) (i : Instr) : Prop :=
  cmdOp q.cmd = op →
    step s = if q.cmd = op.setWidth 32 then exec i s else .next (s.answered rest illegalResponse)

/-- The pattern is that of `n * 0.5` (R69). -/
def isHalves (p : FloatBits) (n : Nat) : Prop := Binary32.ofBits p = .finite false (n * 2 ^ 148)

/-- The pattern is one of the binary32 NaN patterns: exponent field all ones, fraction not zero (R10). -/
def isNanPattern (p : FloatBits) : Prop := p.extractLsb' 23 8 = 255 ∧ p.extractLsb' 0 23 ≠ 0

/-- A magnitude, in units of 2^-149, that binary32 represents: 24 significant bits, below 2^128 (R10). -/
def Representable (units : Nat) : Prop := units < overflowUnits ∧ ∃ k e : Nat, k < 2 ^ 24 ∧ units = k * 2 ^ e

/-- A response's ports are those of no response (R31), of IllegalCommand (R143), or of one operation (R23, R24). -/
def Response.wellShaped (r : Response) : Prop :=
  r = {} ∨ r = illegalResponse ∨
    ∃ i : Instr, r.illegal = some false ∧ ∀ p, (r.read p).isSome = true ↔ p ∈ writtenPorts i

/-- What a 16-bit signed port holds, if anything, lies in [-508, 508] (R23). -/
def inSignedRange (port : Option (BitVec 16)) : Prop := ∀ v, port = some v → -508 ≤ v.toInt ∧ v.toInt ≤ 508

/-- Every signed value on a 16-bit port lies in [-508, 508], so none was truncated (R23). -/
def Response.signedPortsInRange (r : Response) : Prop :=
  inSignedRange r.d.eta ∧ inSignedRange r.d.phi ∧ inSignedRange r.d.etaTC ∧ inSignedRange r.d.phiTC ∧
    inSignedRange r.e.hwEta ∧ inSignedRange r.e.hwPhi

/-- What a float port holds, if anything, is no NaN. -/
def holdsNumber (port : Option FloatBits) : Prop := ∀ p, port = some p → ¬isNanPattern p

/-- A NaN can stand on `out.fval` only (I7). -/
def Response.clusterFloatsAreNumbers (r : Response) : Prop :=
  holdsNumber r.d.ptFloat ∧ holdsNumber r.e.hwPt ∧ holdsNumber r.e.hwEmPt

/-- The invariant of the output ports. -/
def State.PortsOk (s : State) : Prop :=
  s.out.wellShaped ∧ s.out.signedPortsInRange ∧ s.out.clusterFloatsAreNumbers

/-- The output ports after the block answers request `q` alone, as the response of index `draw`. -/
def responseTo (q : Request) (draw : Nat) : Response :=
  match step { inFlight := [q], out := {}, draws := draw } with
  | .next t => t.out
  | .fault _ => {}
  | .refused _ => {}

/-- The number whose low bits a layout's field holds, for given encoder inputs (R62 to R65, R95, R100). -/
def fieldInput (f : FieldPorts) : FieldName → Nat
  | .pt => f.pt.toNat
  | .eta => f.eta.toNat
  | .phi => f.phi.toNat
  | .etaMag => f.eta.toInt.natAbs
  | .etaSign => if 0 < f.eta.toInt then 1 else 0
  | .phiMag => f.phi.toInt.natAbs
  | .phiSign => if 0 < f.phi.toInt then 1 else 0
  | .hoe => f.hoe.toNat
  | .hoeFlag => f.hoeFlag.toNat
  | .iso => f.iso.toNat
  | .isoFlag => f.isoFlag.toNat
  | .fb => f.fb.toNat
  | .timing => f.timing.toNat
  | .shapeFlag => f.shapeFlag.toNat
  | .brems => f.brems.toNat

/-- Bit `k` of the word that a layout's FieldSpec table gives for encoder inputs: the bit of the field that covers `k`, 0
where none does (R60, R100). -/
def layoutBit (l : Layout) (f : FieldPorts) (k : Nat) : Bool :=
  l.fields.any fun x => x.covers k && (fieldInput f x.name).testBit (k - x.offset)

/-- The encode operation of a layout (R72). -/
def Layout.encoder : Layout → Instr
  | .pf => .encPf
  | .v1 => .encV1
  | .v2 => .encV2
  | .v3 => .encV3

/-- The decode operation of a layout (R72). -/
def Layout.decoder : Layout → Instr
  | .pf => .decPf
  | .v1 => .decV1
  | .v2 => .decV2
  | .v3 => .decV3

/-- The null-bits check of a layout (R72). -/
def Layout.checker : Layout → Instr
  | .pf => .chkPf
  | .v1 => .chkV1
  | .v2 => .chkV2
  | .v3 => .chkV3

end Sys2Proof.Machine
end

