-- ==== Sys2Proof/Certificates/Slice0/Obligations.lean ====
section
/-! DEFINITION. The statements for the provers. Each speaks of a state `s` with an oldest request `q` in flight and the
later requests `rest`, unless it says otherwise; `s.answered rest r` is the whole state after the answer `r`, so an
equation with it says what every port holds, that the later requests stay, and that nothing else of the state changes but
the model's own draw index (log 1). -/

open Sys2Proof Sys2Proof.Machine

/-! Fetch, encoding and legality -/

/-- R21, R52: the step answers the oldest request with the operation its command names. -/
def Obligations.StepRunsTheDecodedOperation : Prop :=
  ∀ (s : State) (q : Request) (rest : List Request) (i : Instr),
    s.inFlight = q :: rest → decode q.cmd = .ok i → step s = exec i s

/-- R50, R52, R55: command words written out from the spec's encoding decode to the operations they stand for. -/
def Obligations.SpecCommandWordsDecode : Prop :=
  decode 0b00000000_010011_0000111_001100_00001#32 = .ok (.fpExtsm 12 7 19) ∧
    decode 0b00000000_000000_0000111_010011_00011#32 = .ok (.fpPacku 19 7) ∧
    decode 0b00000000_000000_0000111_000000_00100#32 = .ok (.smEnc 7) ∧
    decode 0b00000000_000000_0000000_000000_01011#32 = .ok .encV3 ∧
    decode 0b00000000_000000_0000000_000000_01110#32 = .ok .decV2 ∧
    decode 0b00000000_000000_0000000_000000_10011#32 = .ok .chkV3 ∧
    decode 0b00000000_000000_0000000_000000_11001#32 = .ok .heSplit ∧
    decode 0b00000000_000000_0000000_000000_11011#32 = .ok .emuHad

/-- R50 to R52, R55: decoding the command word of an operation gives the operation back, with every field at every value. -/
def Obligations.DecodeInvertsEncode : Prop :=
  ∀ i : Instr, decode (encode i) = .ok i

/-- R53, R54: a command word that decodes is the encoding of what it decodes to, so no bit of it is ignored. -/
def Obligations.EncodeInvertsDecode : Prop :=
  ∀ (cmd : Command) (i : Instr), decode cmd = .ok i → encode i = cmd

/-- R55: the encoding of `MNEMONIC f1, f2, f3` is `OP | off<<5 | wid<<11 | sbp<<18`. -/
def Obligations.EncodingIsTheShiftedFields : Prop :=
  ∀ (off : Position) (wid : WidthField) (sbp : Position),
    (encode (.fpExtsm off wid sbp)).toNat =
        0x01 ||| off.toNat <<< 5 ||| wid.toNat <<< 11 ||| sbp.toNat <<< 18 ∧
      (encode (.fpExtu off wid)).toNat = 0x00 ||| off.toNat <<< 5 ||| wid.toNat <<< 11 ∧
      (encode (.fpExttc off wid)).toNat = 0x02 ||| off.toNat <<< 5 ||| wid.toNat <<< 11 ∧
      (encode (.fpPacku off wid)).toNat = 0x03 ||| off.toNat <<< 5 ||| wid.toNat <<< 11 ∧
      (encode (.smEnc wid)).toNat = 0x04 ||| wid.toNat <<< 11 ∧
      (encode (.smDec wid)).toNat = 0x05 ||| wid.toNat <<< 11

/-- R53: the legality test of the spec's pseudocode holds of exactly the commands that decode to an operation whose used
fields meet their constraint. -/
def Obligations.LegalIffDecodesWellFormed : Prop :=
  ∀ cmd : Command, legal cmd = true ↔ ∃ i : Instr, decode cmd = .ok i ∧ i.wellFormed = true

/-! The exception IllegalCommand, the ports and reset -/

/-- R143: a command that fails the legality test gets `out.illegal = 1`, no value on any other port, and no part of an
operation is performed; the requests behind it are not affected. -/
def Obligations.IllegalCommandResponse : Prop :=
  ∀ (s : State) (q : Request) (rest : List Request),
    s.inFlight = q :: rest → legal q.cmd = false →
      step s = .next (s.answered rest { illegal := some true })

/-- R146: legality is decided on `in.cmd` alone, whatever the operands hold: with a legal command `out.illegal` is 0, with
any other it is 1. -/
def Obligations.IllegalBitIsTheLegalityTest : Prop :=
  ∀ (s : State) (q : Request) (rest : List Request),
    s.inFlight = q :: rest →
      ∃ r : Response, step s = .next (s.answered rest r) ∧ r.illegal = some (!legal q.cmd)

/-- R24: a port the operation does not write holds no value, so reading it is a fault; a port it writes can be read. On an
IllegalCommand response only `out.illegal` can be read. -/
def Obligations.UnwrittenPortsFaultOnRead : Prop :=
  ∀ (i : Instr) (s : State) (q : Request) (rest : List Request),
    s.inFlight = q :: rest →
      ∃ t : State, exec i s = .next t ∧
        (i.wellFormed = true →
          (∀ p, p ∉ writtenPorts i → readPort t p = .error (.portHoldsNoValue p)) ∧
            (∀ p, p ∈ writtenPorts i → ∃ v, readPort t p = .ok v) ∧ readPort t .illegal = .ok 0) ∧
        (i.wellFormed = false →
          (∀ p, p ≠ .illegal → readPort t p = .error (.portHoldsNoValue p)) ∧ readPort t .illegal = .ok 1)

/-- R31, R160: right after reset no request is in flight and reading any output port is a fault. -/
def Obligations.ResetHoldsNoValue : Prop :=
  State.reset.inFlight = [] ∧ ∀ p, readPort State.reset p = .error (.portHoldsNoValue p)

/-- R161: the requests in flight when reset is asserted are dropped; however long the block runs on, they get no response,
and every port stays without a value. -/
def Obligations.ResetDropsRequestsInFlight : Prop :=
  ∀ (s : State) (k : Nat),
    ∃ t : State, core.run k s.resetSignal = .next t ∧ t.inFlight = [] ∧
      ∀ p, readPort t p = .error (.portHoldsNoValue p)

/-- The model's own choice (log 3): a step with no request in flight changes nothing. -/
def Obligations.IdleStepChangesNothing : Prop :=
  ∀ s : State, s.inFlight = [] → step s = .next s ∧ ∀ i : Instr, exec i s = .next s

/-! Fixed-point field unpacker and packer -/

/-- R80: FP.EXTU, its legal commands and its result. -/
def Obligations.FpExtuReadsTheField : Prop :=
  ∀ (s : State) (q : Request) (rest : List Request), s.inFlight = q :: rest →
    (∀ (off : Position) (wid : WidthField),
      exec (.fpExtu off wid) s = .next (s.answered rest
        (if off.toNat + wid.toNat ≤ 64 then
          { illegal := some false, ival := some ((q.a.extractLsb' off.toNat wid.toNat).setWidth 65) }
        else illegalResponse))) ∧
    (cmdOp q.cmd = 0x00 →
      step s = if cmdSbp q.cmd = 0 ∧ cmdRsv q.cmd = 0 then exec (.fpExtu (cmdOff q.cmd) (cmdWid q.cmd)) s
        else .next (s.answered rest illegalResponse))

/-- R81: FP.EXTSM, its legal commands and its result; sign bit 1 means positive. -/
def Obligations.FpExtsmReadsSignAndMagnitude : Prop :=
  ∀ (s : State) (q : Request) (rest : List Request), s.inFlight = q :: rest →
    (∀ (off : Position) (wid : WidthField) (sbp : Position),
      exec (.fpExtsm off wid sbp) s = .next (s.answered rest
        (if off.toNat + wid.toNat ≤ 64 ∧ (sbp.toNat < off.toNat ∨ off.toNat + wid.toNat ≤ sbp.toNat) then
          { illegal := some false
            ival := some (if q.a.getLsbD sbp.toNat then (q.a.extractLsb' off.toNat wid.toNat).setWidth 65
              else -(q.a.extractLsb' off.toNat wid.toNat).setWidth 65) }
        else illegalResponse))) ∧
    (cmdOp q.cmd = 0x01 →
      step s = if cmdRsv q.cmd = 0 then exec (.fpExtsm (cmdOff q.cmd) (cmdWid q.cmd) (cmdSbp q.cmd)) s
        else .next (s.answered rest illegalResponse))

/-- R82: FP.EXTTC, its legal commands and its result. -/
def Obligations.FpExttcReadsTwosComplement : Prop :=
  ∀ (s : State) (q : Request) (rest : List Request), s.inFlight = q :: rest →
    (∀ (off : Position) (wid : WidthField),
      exec (.fpExttc off wid) s = .next (s.answered rest
        (if 1 ≤ wid.toNat ∧ off.toNat + wid.toNat ≤ 64 then
          { illegal := some false, ival := some ((q.a.extractLsb' off.toNat wid.toNat).signExtend 65) }
        else illegalResponse))) ∧
    (cmdOp q.cmd = 0x02 →
      step s = if cmdSbp q.cmd = 0 ∧ cmdRsv q.cmd = 0 then exec (.fpExttc (cmdOff q.cmd) (cmdWid q.cmd)) s
        else .next (s.answered rest illegalResponse))

/-- R90: FP.PACKU, its legal commands and its result. -/
def Obligations.FpPackuPlacesTheLowBits : Prop :=
  ∀ (s : State) (q : Request) (rest : List Request), s.inFlight = q :: rest →
    (∀ (off : Position) (wid : WidthField),
      exec (.fpPacku off wid) s = .next (s.answered rest
        (if off.toNat + wid.toNat ≤ 64 then
          { illegal := some false, word := some ((q.a.setWidth wid.toNat).setWidth 64 <<< off.toNat) }
        else illegalResponse))) ∧
    (cmdOp q.cmd = 0x03 →
      step s = if cmdSbp q.cmd = 0 ∧ cmdRsv q.cmd = 0 then exec (.fpPacku (cmdOff q.cmd) (cmdWid q.cmd)) s
        else .next (s.answered rest illegalResponse))

/-- R93: packing a value and reading the field back gives the value modulo 2^wid, for every legal OFF and WID. -/
def Obligations.PackThenExtractUnsigned : Prop :=
  ∀ (off : Position) (wid : WidthField) (s s' : State) (q q' : Request) (rest rest' : List Request),
    off.toNat + wid.toNat ≤ 64 → s.inFlight = q :: rest → s'.inFlight = q' :: rest' →
      ∃ t t' : State, exec (.fpPacku off wid) s = .next t ∧
        (t.out.word = some q'.a →
          exec (.fpExtu off wid) s' = .next t' ∧
            ∃ v : BitVec 65, t'.out.ival = some v ∧ v.toNat = q.a.toNat % 2 ^ wid.toNat)

/-- R91: a signed value inside the field's range, packed as its two's-complement pattern, reads back with FP.EXTTC. -/
def Obligations.PackThenExtractSigned : Prop :=
  ∀ (off : Position) (wid : WidthField) (s s' : State) (q q' : Request) (rest rest' : List Request),
    1 ≤ wid.toNat → off.toNat + wid.toNat ≤ 64 → s.inFlight = q :: rest → s'.inFlight = q' :: rest' →
      -(2 ^ (wid.toNat - 1)) ≤ q.a.toInt → q.a.toInt ≤ 2 ^ (wid.toNat - 1) - 1 →
        ∃ t t' : State, exec (.fpPacku off wid) s = .next t ∧
          (t.out.word = some q'.a →
            exec (.fpExttc off wid) s' = .next t' ∧
              ∃ v : BitVec 65, t'.out.ival = some v ∧ v.toInt = q.a.toInt)

/-! Sign-magnitude converter -/

/-- R95: SM.ENC, its legal commands and its result; zero falls in the non-positive class, and -2^63 has magnitude 2^63. -/
def Obligations.SmEncSplitsSignAndMagnitude : Prop :=
  ∀ (s : State) (q : Request) (rest : List Request), s.inFlight = q :: rest →
    (∀ wid : WidthField,
      exec (.smEnc wid) s = .next (s.answered rest
        (if wid.toNat ≤ 64 then
          { illegal := some false
            sign := some (decide (0 < q.a.toInt))
            mag := some (((if q.a.msb then -q.a else q.a).setWidth wid.toNat).setWidth 64) }
        else illegalResponse))) ∧
    (cmdOp q.cmd = 0x04 →
      step s = if cmdOff q.cmd = 0 ∧ cmdSbp q.cmd = 0 ∧ cmdRsv q.cmd = 0 then exec (.smEnc (cmdWid q.cmd)) s
        else .next (s.answered rest illegalResponse))

/-- R96: SM.DEC, its legal commands and its result. -/
def Obligations.SmDecJoinsSignAndMagnitude : Prop :=
  ∀ (s : State) (q : Request) (rest : List Request), s.inFlight = q :: rest →
    (∀ wid : WidthField,
      exec (.smDec wid) s = .next (s.answered rest
        (if wid.toNat ≤ 64 then
          { illegal := some false
            ival := some (if q.b.getLsbD 0 then (q.a.setWidth wid.toNat).setWidth 65
              else -(q.a.setWidth wid.toNat).setWidth 65) }
        else illegalResponse))) ∧
    (cmdOp q.cmd = 0x05 →
      step s = if cmdOff q.cmd = 0 ∧ cmdSbp q.cmd = 0 ∧ cmdRsv q.cmd = 0 then exec (.smDec (cmdWid q.cmd)) s
        else .next (s.answered rest illegalResponse))

/-- R97: a value encoded by SM.ENC and decoded by SM.DEC comes back where its magnitude fits; else its magnitude comes back
truncated under its sign. -/
def Obligations.SignMagnitudeRoundTrip : Prop :=
  ∀ (wid : WidthField) (s s' : State) (q q' : Request) (rest rest' : List Request),
    wid.toNat ≤ 64 → s.inFlight = q :: rest → s'.inFlight = q' :: rest' →
      ∃ t t' : State, exec (.smEnc wid) s = .next t ∧
        (t.out.mag = some q'.a → t.out.sign = some (q'.b.getLsbD 0) →
          exec (.smDec wid) s' = .next t' ∧
            ∃ v : BitVec 65, t'.out.ival = some v ∧
              (q.a.toInt.natAbs < 2 ^ wid.toNat → v.toInt = q.a.toInt) ∧
              v.toInt = q.a.toInt.sign * (q.a.toInt.natAbs % 2 ^ wid.toNat : Nat))

/-- R9, R23: the integers the unpacker and the converter compute are the mathematical ones; `out.ival` truncates none. -/
def Obligations.IvalHoldsTheMathematicalInteger : Prop :=
  ∀ (s : State) (q : Request) (rest : List Request) (off : Position) (wid : WidthField) (sbp : Position),
    s.inFlight = q :: rest →
      ((Instr.fpExtu off wid).wellFormed = true →
        ∃ t v, exec (.fpExtu off wid) s = .next t ∧ t.out.ival = some v ∧
          v.toInt = q.a.toNat / 2 ^ off.toNat % 2 ^ wid.toNat) ∧
      ((Instr.fpExtsm off wid sbp).wellFormed = true →
        ∃ t v, exec (.fpExtsm off wid sbp) s = .next t ∧ t.out.ival = some v ∧
          v.toInt = (if q.a.getLsbD sbp.toNat then 1 else -1) * ((q.a.toNat / 2 ^ off.toNat % 2 ^ wid.toNat : Nat) : Int)) ∧
      ((Instr.fpExttc off wid).wellFormed = true →
        ∃ t v, exec (.fpExttc off wid) s = .next t ∧ t.out.ival = some v ∧
          v.toInt % 2 ^ wid.toNat = q.a.toNat / 2 ^ off.toNat % 2 ^ wid.toNat ∧
          -(2 ^ (wid.toNat - 1)) ≤ v.toInt ∧ v.toInt ≤ 2 ^ (wid.toNat - 1) - 1) ∧
      ((Instr.smDec wid).wellFormed = true →
        ∃ t v, exec (.smDec wid) s = .next t ∧ t.out.ival = some v ∧
          v.toInt = (if q.b.getLsbD 0 then 1 else -1) * ((q.a.toNat % 2 ^ wid.toNat : Nat) : Int))

/-! Cluster word encoder -/

/-- R101: ENC.PF writes hoe, phi, eta and pt, each cut to its width, at the places R62 draws; every other bit is 0. -/
def Obligations.EncPfWord : Prop :=
  ∀ (s : State) (q : Request) (rest : List Request), s.inFlight = q :: rest →
    exec .encPf s = .next (s.answered rest
      { illegal := some false
        word := some ((0 : BitVec 34) ++ q.f.hoe.setWidth 4 ++ q.f.phi.setWidth 7 ++ q.f.eta.setWidth 7 ++
          q.f.pt.setWidth 12) }) ∧
    s.runsOnlyOn q rest 0x08 .encPf

/-- R102, R103: ENC.V1 writes the eleven fields contiguously from bit 0; ENC.V2 writes the same word and passes the region
index through. -/
def Obligations.EncV1AndV2Words : Prop :=
  ∀ (s : State) (q : Request) (rest : List Request), s.inFlight = q :: rest →
    let w : Word := (0 : BitVec 12) ++ q.f.brems.setWidth 2 ++ q.f.shapeFlag.setWidth 2 ++ q.f.timing.setWidth 5 ++
      q.f.fb.setWidth 6 ++ q.f.isoFlag.setWidth 2 ++ q.f.iso.setWidth 3 ++ q.f.hoeFlag.setWidth 2 ++ q.f.hoe.setWidth 4 ++
      q.f.phi.setWidth 7 ++ q.f.eta.setWidth 7 ++ q.f.pt.setWidth 12
    exec .encV1 s = .next (s.answered rest { illegal := some false, word := some w }) ∧
    s.runsOnlyOn q rest 0x09 .encV1 ∧
    exec .encV2 s = .next (s.answered rest { illegal := some false, word := some w, region := some q.f.region }) ∧
    s.runsOnlyOn q rest 0x0A .encV2

/-- R104: ENC.V3 writes eta and phi as sign and magnitude, sign 1 for a positive value, and the other fields cut to their
widths, contiguously from bit 0. -/
def Obligations.EncV3Word : Prop :=
  ∀ (s : State) (q : Request) (rest : List Request), s.inFlight = q :: rest →
    exec .encV3 s = .next (s.answered rest
      { illegal := some false
        word := some ((0 : BitVec 11) ++ q.f.brems.setWidth 2 ++ q.f.shapeFlag.setWidth 2 ++ q.f.timing.setWidth 5 ++
          q.f.fb.setWidth 6 ++ q.f.isoFlag.setWidth 2 ++ q.f.iso.setWidth 3 ++ q.f.hoeFlag.setWidth 2 ++
          q.f.hoe.setWidth 4 ++
          BitVec.ofBool (decide (0 < q.f.phi.toInt)) ++ (if q.f.phi.msb then -q.f.phi else q.f.phi).setWidth 6 ++
          BitVec.ofBool (decide (0 < q.f.eta.toInt)) ++ (if q.f.eta.msb then -q.f.eta else q.f.eta).setWidth 7 ++
          q.f.pt.setWidth 12) }) ∧
    s.runsOnlyOn q rest 0x0B .encV3

/-- R60, R62 to R65, R100: the FieldSpec tables and the encoders agree. The fields of a layout lie inside the word and share
no bit, and every bit of an encoded word is the bit of the field that covers it, or 0 where none does. -/
def Obligations.EncodersFollowTheFieldTables : Prop :=
  ∀ (l : Layout) (s : State) (q : Request) (rest : List Request), s.inFlight = q :: rest →
    (∀ x ∈ l.fields, x.offset + x.width ≤ 64) ∧ l.fields.Pairwise (fun x y => x.disjoint y = true) ∧
      ∃ (t : State) (w : Word), exec l.encoder s = .next t ∧ t.out.word = some w ∧
        ∀ k, k < 64 → w.getLsbD k = layoutBit l q.f k

/-- R105: ZERO writes the all-zero word on the one legal command; every decoder maps that word to pt, eta and phi 0 and, where
its layout has flags, to flags that are all false; and it passes every null-bits check. DEC.PF writes no flag port (R111). -/
def Obligations.ZeroWordOfEveryLayout : Prop :=
  ∀ (s : State) (q : Request) (rest : List Request), s.inFlight = q :: rest →
    exec .zero s = .next (s.answered rest { illegal := some false, word := some 0 }) ∧
    s.runsOnlyOn q rest 0x14 .zero ∧
    (q.a = 0 → ∀ l : Layout,
      (∃ t : State, exec l.decoder s = .next t ∧ t.out.d.pt = some 0 ∧ t.out.d.ptFloat = some 0 ∧
        t.out.d.eta = some 0 ∧ t.out.d.phi = some 0 ∧
        (l ≠ .pf →
          t.out.d.isoStandalone = some false ∧ t.out.d.isoLooseTrack = some false ∧
          t.out.d.shapeStandalone = some false ∧ t.out.d.shapeLooseTrack = some false ∧
          t.out.d.hoeFlag = some 0 ∧ t.out.d.isoFlag = some 0 ∧ t.out.d.shapeFlag = some 0) ∧
        (l = .pf →
          t.out.d.isoStandalone = none ∧ t.out.d.isoLooseTrack = none ∧
          t.out.d.shapeStandalone = none ∧ t.out.d.shapeLooseTrack = none)) ∧
      exec l.checker s = .next (s.answered rest { illegal := some false, ok := some true }))

/-- R106: an encoder's output passes its layout's null-bits check, but for GCTWord-v3 with brems 2 or 3. -/
def Obligations.EncodedWordsPassTheirCheck : Prop :=
  ∀ (l : Layout) (s s' : State) (q q' : Request) (rest rest' : List Request),
    s.inFlight = q :: rest → s'.inFlight = q' :: rest' →
      ∃ t t' : State, exec l.encoder s = .next t ∧
        (t.out.word = some q'.a →
          exec l.checker s' = .next t' ∧
            t'.out.ok = some (decide (l = .v3 → q.f.brems.toNat % 4 < 2)))

/-! Cluster word decoder and null-bits check -/

/-- R111: DEC.PF. -/
def Obligations.DecPfPorts : Prop :=
  ∀ (s : State) (q : Request) (rest : List Request), s.inFlight = q :: rest →
    (∃ p : FloatBits, isHalves p (q.a.extractLsb' 0 12).toNat ∧
      exec .decPf s = .next (s.answered rest
        { illegal := some false
          d :=
            { pt := some (q.a.extractLsb' 0 12)
              ptFloat := some p
              eta := some ((q.a.extractLsb' 12 7).setWidth 16)
              phi := some ((q.a.extractLsb' 19 7).signExtend 16)
              hoe := some (q.a.extractLsb' 26 4) } })) ∧
    s.runsOnlyOn q rest 0x0C .decPf

/-- R112: DEC.V1, with the angles read as unsigned values and as two's-complement-like ones. -/
def Obligations.DecV1Ports : Prop :=
  ∀ (s : State) (q : Request) (rest : List Request), s.inFlight = q :: rest →
    (∃ p : FloatBits, isHalves p (q.a.extractLsb' 0 12).toNat ∧
      exec .decV1 s = .next (s.answered rest
        { illegal := some false
          d :=
            { pt := some (q.a.extractLsb' 0 12)
              ptFloat := some p
              eta := some ((q.a.extractLsb' 12 7).setWidth 16)
              etaTC := some ((q.a.extractLsb' 12 7).signExtend 16)
              phi := some ((q.a.extractLsb' 19 7).setWidth 16)
              phiTC := some ((q.a.extractLsb' 19 7).signExtend 16)
              hoe := some (q.a.extractLsb' 26 4)
              hoeFlag := some (q.a.extractLsb' 30 2)
              iso := some (q.a.extractLsb' 32 3)
              isoFlag := some (q.a.extractLsb' 35 2)
              fb := some (q.a.extractLsb' 37 6)
              timing := some (q.a.extractLsb' 43 5)
              shapeFlag := some (q.a.extractLsb' 48 2)
              brems := some (q.a.extractLsb' 50 2)
              isoStandalone := some (q.a.getLsbD 35)
              isoLooseTrack := some (q.a.getLsbD 36)
              shapeStandalone := some (q.a.getLsbD 48)
              shapeLooseTrack := some (q.a.getLsbD 49) } })) ∧
    s.runsOnlyOn q rest 0x0D .decV1

/-- R113: DEC.V2 differs from DEC.V1 in the 8-bit eta window [19:12] and in the region index it passes through. -/
def Obligations.DecV2Ports : Prop :=
  ∀ (s : State) (q : Request) (rest : List Request), s.inFlight = q :: rest →
    (∃ t1 : State, exec .decV1 s = .next t1 ∧
      exec .decV2 s = .next (s.answered rest
        { t1.out with
          d :=
            { t1.out.d with
              eta := some ((q.a.extractLsb' 12 8).setWidth 16)
              etaTC := some ((q.a.extractLsb' 12 8).signExtend 16)
              region := some q.f.region } })) ∧
    s.runsOnlyOn q rest 0x0E .decV2

/-- R114: DEC.V3, with eta and phi read from a sign bit (1 means positive) and a magnitude. -/
def Obligations.DecV3Ports : Prop :=
  ∀ (s : State) (q : Request) (rest : List Request), s.inFlight = q :: rest →
    (∃ p : FloatBits, isHalves p (q.a.extractLsb' 0 12).toNat ∧
      exec .decV3 s = .next (s.answered rest
        { illegal := some false
          d :=
            { pt := some (q.a.extractLsb' 0 12)
              ptFloat := some p
              etaMag := some (q.a.extractLsb' 12 7)
              etaSign := some (q.a.getLsbD 19)
              phiMag := some (q.a.extractLsb' 20 6)
              phiSign := some (q.a.getLsbD 26)
              eta := some (if q.a.getLsbD 19 then (q.a.extractLsb' 12 7).setWidth 16
                else -(q.a.extractLsb' 12 7).setWidth 16)
              phi := some (if q.a.getLsbD 26 then (q.a.extractLsb' 20 6).setWidth 16
                else -(q.a.extractLsb' 20 6).setWidth 16)
              hoe := some (q.a.extractLsb' 27 4)
              hoeFlag := some (q.a.extractLsb' 31 2)
              iso := some (q.a.extractLsb' 33 3)
              isoFlag := some (q.a.extractLsb' 36 2)
              fb := some (q.a.extractLsb' 38 6)
              timing := some (q.a.extractLsb' 44 5)
              shapeFlag := some (q.a.extractLsb' 49 2)
              brems := some (q.a.extractLsb' 51 2)
              isoStandalone := some (q.a.getLsbD 36)
              isoLooseTrack := some (q.a.getLsbD 37)
              shapeStandalone := some (q.a.getLsbD 49)
              shapeLooseTrack := some (q.a.getLsbD 50) } })) ∧
    s.runsOnlyOn q rest 0x0F .decV3

/-- R115: a decoder refuses no word, signals nothing, and reads the field bits of its layout only: two requests that agree on
them (and, for DEC.V2, on the region index) get the same answer. -/
def Obligations.DecodersReadFieldBitsOnly : Prop :=
  ∀ (l : Layout) (s : State) (q q' : Request) (rest : List Request),
    s.inFlight = q :: rest → q'.f.region = q.f.region →
      (∀ k, (∃ x ∈ l.fields, x.covers k = true) → q'.a.getLsbD k = q.a.getLsbD k) →
        ∃ r : Response, r.illegal = some false ∧ exec l.decoder s = .next (s.answered rest r) ∧
          exec l.decoder { s with inFlight := q' :: rest } = .next (s.answered rest r)

/-- R117 to R120: each CHK operation reports whether every bit at and above its layout's unusedBitsStart is 0. -/
def Obligations.NullBitsChecks : Prop :=
  ∀ (s : State) (q : Request) (rest : List Request), s.inFlight = q :: rest →
    (exec .chkPf s = .next (s.answered rest
        { illegal := some false, ok := some (decide (q.a.extractLsb' 31 33 = 0)) }) ∧
      s.runsOnlyOn q rest 0x10 .chkPf) ∧
    (exec .chkV1 s = .next (s.answered rest
        { illegal := some false, ok := some (decide (q.a.extractLsb' 52 12 = 0)) }) ∧
      s.runsOnlyOn q rest 0x11 .chkV1) ∧
    (exec .chkV2 s = .next (s.answered rest
        { illegal := some false, ok := some (decide (q.a.extractLsb' 52 12 = 0)) }) ∧
      s.runsOnlyOn q rest 0x12 .chkV2) ∧
    (exec .chkV3 s = .next (s.answered rest
        { illegal := some false, ok := some (decide (q.a.extractLsb' 52 12 = 0)) }) ∧
      s.runsOnlyOn q rest 0x13 .chkV3)

/-- R67: PFCrystalWord bit 30 lies in no field and below unusedBitsStart; ENC.PF writes it as 0, and it makes no difference to
DEC.PF and CHK.PF; in the GCT layouts every bit below unusedBitsStart lies in a field. -/
def Obligations.GapBitOfThePfWord : Prop :=
  ∀ (s : State) (q : Request) (rest : List Request), s.inFlight = q :: rest →
    (∃ (t : State) (w : Word), exec .encPf s = .next t ∧ t.out.word = some w ∧ w.getLsbD 30 = false) ∧
    (∃ t : State, exec .decPf s = .next t ∧
      exec .decPf { s with inFlight := { q with a := q.a ^^^ 1 <<< 30 } :: rest } = .next t) ∧
    (∃ t : State, exec .chkPf s = .next t ∧
      exec .chkPf { s with inFlight := { q with a := q.a ^^^ 1 <<< 30 } :: rest } = .next t) ∧
    (¬∃ x ∈ Layout.pf.fields, x.covers 30 = true) ∧ 30 < Layout.pf.unusedBitsStart ∧
    ∀ l : Layout, l ≠ .pf → ∀ k, k < l.unusedBitsStart → ∃ x ∈ l.fields, x.covers k = true

/-- R116, for PFCrystalWord, GCTWord-v1 and GCTWord-v2: decoding an encoded word returns each field input cut to its width;
PFCrystalWord's phi is read as two's complement, so that it comes back where it lies in [-64, 63]; GCTWord-v2's eta comes back
with phi's low bit above it. -/
def Obligations.PfV1V2RoundTrip : Prop :=
  ∀ (l : Layout) (s s' : State) (q q' : Request) (rest rest' : List Request),
    l ≠ .v3 → s.inFlight = q :: rest → s'.inFlight = q' :: rest' →
      ∃ t t' : State, exec l.encoder s = .next t ∧
        (t.out.word = some q'.a → exec l.decoder s' = .next t' ∧
          t'.out.d.pt = some (q.f.pt.setWidth 12) ∧ t'.out.d.hoe = some (q.f.hoe.setWidth 4) ∧
          (l = .pf →
            t'.out.d.eta = some ((q.f.eta.setWidth 7).setWidth 16) ∧
            t'.out.d.phi = some ((q.f.phi.setWidth 7).signExtend 16) ∧
            (-64 ≤ q.f.phi.toInt → q.f.phi.toInt ≤ 63 →
              ((q.f.phi.setWidth 7).signExtend 16).toInt = q.f.phi.toInt)) ∧
          (l ≠ .pf →
            t'.out.d.phi = some ((q.f.phi.setWidth 7).setWidth 16) ∧
            t'.out.d.hoeFlag = some (q.f.hoeFlag.setWidth 2) ∧ t'.out.d.iso = some (q.f.iso.setWidth 3) ∧
            t'.out.d.isoFlag = some (q.f.isoFlag.setWidth 2) ∧ t'.out.d.fb = some (q.f.fb.setWidth 6) ∧
            t'.out.d.timing = some (q.f.timing.setWidth 5) ∧
            t'.out.d.shapeFlag = some (q.f.shapeFlag.setWidth 2) ∧
            t'.out.d.brems = some (q.f.brems.setWidth 2)) ∧
          (l = .v1 → t'.out.d.eta = some ((q.f.eta.setWidth 7).setWidth 16)) ∧
          (l = .v2 → ∃ eta, t'.out.d.eta = some eta ∧
            eta.toNat = q.f.eta.toNat % 128 + 128 * (q.f.phi.toNat % 2)))

/-- R116, for GCTWord-v3: eta in [-127, 127] and phi in [-63, 63] come back, and every unsigned field cut to its width. -/
def Obligations.V3RoundTrip : Prop :=
  ∀ (s s' : State) (q q' : Request) (rest rest' : List Request),
    s.inFlight = q :: rest → s'.inFlight = q' :: rest' →
      ∃ t t' : State, exec .encV3 s = .next t ∧
        (t.out.word = some q'.a → exec .decV3 s' = .next t' ∧
          t'.out.d.pt = some (q.f.pt.setWidth 12) ∧
          (∃ eta, t'.out.d.eta = some eta ∧
            (-127 ≤ q.f.eta.toInt → q.f.eta.toInt ≤ 127 → eta.toInt = q.f.eta.toInt) ∧
            eta.toInt = q.f.eta.toInt.sign * (q.f.eta.toInt.natAbs % 128 : Nat)) ∧
          (∃ phi, t'.out.d.phi = some phi ∧
            (-63 ≤ q.f.phi.toInt → q.f.phi.toInt ≤ 63 → phi.toInt = q.f.phi.toInt) ∧
            phi.toInt = q.f.phi.toInt.sign * (q.f.phi.toInt.natAbs % 64 : Nat)) ∧
          t'.out.d.hoe = some (q.f.hoe.setWidth 4) ∧ t'.out.d.hoeFlag = some (q.f.hoeFlag.setWidth 2) ∧
          t'.out.d.iso = some (q.f.iso.setWidth 3) ∧ t'.out.d.isoFlag = some (q.f.isoFlag.setWidth 2) ∧
          t'.out.d.fb = some (q.f.fb.setWidth 6) ∧ t'.out.d.timing = some (q.f.timing.setWidth 5) ∧
          t'.out.d.shapeFlag = some (q.f.shapeFlag.setWidth 2) ∧ t'.out.d.brems = some (q.f.brems.setWidth 2))

/-! binary32 and the energy fraction -/

/-- R10: a finite result of `rne32` is representable and no representable value is nearer to the exact one; where another is
as near, the result's last significand bit is 0. -/
def Obligations.RoundingIsNearestEven : Prop :=
  ∀ (neg : Bool) (num den : Nat), 0 < den →
    ∀ (neg' : Bool) (m : Nat), rne32 neg num den = .finite neg' m →
      neg' = neg ∧ Representable m ∧
        ∀ m' : Nat, Representable m' →
          ((m * den : Int) - num).natAbs ≤ ((m' * den : Int) - num).natAbs ∧
            (m' ≠ m → ((m * den : Int) - num).natAbs = ((m' * den : Int) - num).natAbs →
              ∀ draw, (bits32 draw (.finite neg m)).getLsbD 0 = false)

/-- R10: `rne32` gives an infinity exactly where the exact magnitude is half a last place above the largest finite value or
more, and it is the infinity of the same sign; it never gives a NaN. -/
def Obligations.RoundingOverflowsToInfinity : Prop :=
  ∀ (neg : Bool) (num den : Nat), 0 < den →
    ((∃ b, rne32 neg num den = .inf b) ↔ (2 ^ 25 - 1) * 2 ^ 252 * den ≤ num) ∧
      (∀ b, rne32 neg num den = .inf b → b = neg) ∧ rne32 neg num den ≠ .nan

/-- R10: reading a pattern and writing the value back gives the pattern, for every pattern that is no NaN; the NaN patterns are
those read as NaN, and every drawn pattern is one. -/
def Obligations.FloatPatternsRoundTrip : Prop :=
  ∀ (p : FloatBits) (draw : Nat),
    (¬isNanPattern p → bits32 draw (.ofBits p) = p) ∧ (isNanPattern p ↔ Binary32.ofBits p = .nan) ∧
      isNanPattern (bits32 draw .nan)

/-- R131: HE.FRAC. One rounding of the exact quotient where the product does not overflow; the infinity of the total's sign
where it does; an infinity for an infinity, a NaN for a NaN. -/
def Obligations.HeFracResult : Prop :=
  ∀ (s : State) (q : Request) (rest : List Request), s.inFlight = q :: rest →
    (∃ p : FloatBits,
      exec .heFrac s = .next (s.answered rest { illegal := some false, fval := some p }) ∧
        let h := (q.b.extractLsb' 0 3).toNat
        match Binary32.ofBits (q.a.extractLsb' 0 32) with
        | .nan => isNanPattern p
        | .inf neg => Binary32.ofBits p = .inf neg
        | .finite neg m =>
          Binary32.ofBits p =
            if m * 2 ^ h < overflowUnits then rne32 neg (m * 2 ^ h) (2 ^ h + 1) else .inf neg) ∧
    s.runsOnlyOn q rest 0x18 .heFrac

/-- R132: HE.SPLIT. With isEmBigger the fraction itself; without it the total less the fraction, exactly, where the product
does not overflow; the infinity of the other sign where it does; a NaN for infinity less infinity and for a NaN. The sign of
a zero difference (+0, also for -0 less -0) is IEEE 754's, which log 11 marks as presumed. -/
def Obligations.HeSplitResult : Prop :=
  ∀ (s : State) (q : Request) (rest : List Request), s.inFlight = q :: rest →
    (∃ p : FloatBits,
      exec .heSplit s = .next (s.answered rest { illegal := some false, fval := some p }) ∧
        let em := q.b.getLsbD 0
        let h := (q.b.extractLsb' 1 3).toNat
        match Binary32.ofBits (q.a.extractLsb' 0 32) with
        | .nan => isNanPattern p
        | .inf neg => if em then Binary32.ofBits p = .inf neg else isNanPattern p
        | .finite neg m =>
          let f := roundUnits (m * 2 ^ h) (2 ^ h + 1)
          if m * 2 ^ h < overflowUnits then
            f ≤ m ∧
              Binary32.ofBits p =
                if em then .finite neg f else .finite (neg && decide (f ≠ m)) (m - f)
          else Binary32.ofBits p = .inf (if em then neg else !neg)) ∧
    s.runsOnlyOn q rest 0x19 .heSplit

/-- R135 (a): for a total that is +0, positive and finite, or +infinity, the fraction does not decrease with the hoeCode. The
pattern of a value that is not negative grows with the value, so the patterns are compared. -/
def Obligations.FractionGrowsWithTheCode : Prop :=
  ∀ (s s' : State) (q q' : Request) (rest rest' : List Request),
    s.inFlight = q :: rest → s'.inFlight = q' :: rest' →
      ((∃ m, Binary32.ofBits (q.a.extractLsb' 0 32) = .finite false m) ∨
          Binary32.ofBits (q.a.extractLsb' 0 32) = .inf false) →
        q'.a.extractLsb' 0 32 = q.a.extractLsb' 0 32 →
        q.b.extractLsb' 0 3 ≤ q'.b.extractLsb' 0 3 →
          ∃ (t t' : State) (p p' : FloatBits), exec .heFrac s = .next t ∧ exec .heFrac s' = .next t' ∧
            t.out.fval = some p ∧ t'.out.fval = some p' ∧ p.toNat ≤ p'.toNat

/-- R135 (b), (c), for a total that is +0 or positive and finite: with hoeCode 0 the fraction is the total halved and rounded
once; a fraction whose product does not overflow is at most the total. Where the product overflows, R131 is followed and not
(c) (log 13). -/
def Obligations.FractionHalvesAndIsAtMostTheTotal : Prop :=
  ∀ (s : State) (q : Request) (rest : List Request) (m : Nat),
    s.inFlight = q :: rest → Binary32.ofBits (q.a.extractLsb' 0 32) = .finite false m →
      ∃ (t : State) (p : FloatBits), exec .heFrac s = .next t ∧ t.out.fval = some p ∧
        (q.b.extractLsb' 0 3 = 0 → Binary32.ofBits p = rne32 false m 2) ∧
        (m * 2 ^ (q.b.extractLsb' 0 3).toNat < overflowUnits → p.toNat ≤ (q.a.extractLsb' 0 32).toNat)

/-! Decoder emulators -/

/-- R133: EMU.EM reads pt, eta and phi of a GCTWord-v3 word: hwPt is pt * 0.5, hwEta and hwPhi are four times the
sign-magnitude values. -/
def Obligations.EmuEmPorts : Prop :=
  ∀ (s : State) (q : Request) (rest : List Request), s.inFlight = q :: rest →
    (∃ p : FloatBits, isHalves p (q.a.extractLsb' 0 12).toNat ∧
      exec .emuEm s = .next (s.answered rest
        { illegal := some false
          e :=
            { hwPt := some p
              hwEta := some ((if q.a.getLsbD 19 then (q.a.extractLsb' 12 7).setWidth 16
                else -(q.a.extractLsb' 12 7).setWidth 16) * 4)
              hwPhi := some ((if q.a.getLsbD 26 then (q.a.extractLsb' 20 6).setWidth 16
                else -(q.a.extractLsb' 20 6).setWidth 16) * 4) } })) ∧
    s.runsOnlyOn q rest 0x1A .emuEm

/-- R134: EMU.HAD adds isEmBigger (bit 27), hoeCode (bits [30:28]) and hwEmPt, the split of hwPt: the rounded fraction, or
hwPt less it, exactly; it is finite, not negative and at most hwPt. -/
def Obligations.EmuHadPorts : Prop :=
  ∀ (s : State) (q : Request) (rest : List Request), s.inFlight = q :: rest →
    (∃ (t : State) (p : FloatBits), exec .emuEm s = .next t ∧
      let h := (q.a.extractLsb' 28 3).toNat
      let m := (q.a.extractLsb' 0 12).toNat * 2 ^ 148
      let f := roundUnits (m * 2 ^ h) (2 ^ h + 1)
      f ≤ m ∧ Binary32.ofBits p = .finite false (if q.a.getLsbD 27 then f else m - f) ∧
        exec .emuHad s = .next (s.answered rest
          { t.out with
            e :=
              { t.out.e with
                isEmBigger := some (q.a.getLsbD 27)
                hoeCode := some (q.a.extractLsb' 28 3)
                hwEmPt := some p } })) ∧
    s.runsOnlyOn q rest 0x1B .emuHad

/-! The whole machine -/

/-- R44, R83, R140 to R144: no state and no request stops the block. Every operation answers the oldest request with one
response and leaves the later ones in flight. -/
def Obligations.EveryOperationAnswers : Prop :=
  (∀ s : State, ∃ t : State, step s = .next t) ∧
    ∀ (i : Instr) (s : State) (q : Request) (rest : List Request), s.inFlight = q :: rest →
      ∃ r : Response, exec i s = .next (s.answered rest r) ∧ r.illegal = some (!i.wellFormed)

/-- R20, with R7's `NAN_RESULT`: the response depends on the request alone. Two blocks, whatever their histories, give equal
requests responses that agree on every port but for the pattern of a NaN on `out.fval`, which is drawn per result (log 1,
log 12). -/
def Obligations.ResponseDependsOnTheRequestAlone : Prop :=
  ∀ (s s' : State) (q : Request) (rest rest' : List Request),
    s.inFlight = q :: rest → s'.inFlight = q :: rest' →
      ∃ t t' : State, step s = .next t ∧ step s' = .next t' ∧
        (∀ p, p ≠ .fval → t.out.read p = t'.out.read p) ∧
        (t.out.fval = t'.out.fval ∨
          ∃ v v' : FloatBits, t.out.fval = some v ∧ t'.out.fval = some v' ∧ isNanPattern v ∧ isNanPattern v')

/-- R165: each accepted request gets exactly one response, in the order of the requests, and none depends on another: after
`k` steps the `k` oldest requests have left and the ports hold the answer to the `k`-th, as if it had been sent alone; when
none is in flight no further response comes. -/
def Obligations.ResponsesComeInRequestOrder : Prop :=
  ∀ (s : State) (k : Nat),
    (k ≤ s.inFlight.length →
      ∃ t : State, core.run k s = .next t ∧ t.inFlight = s.inFlight.drop k ∧ t.draws = s.draws + k ∧
        ∀ j q, k = j + 1 → s.inFlight[j]? = some q → t.out = responseTo q (s.draws + j)) ∧
    (s.inFlight.length ≤ k → core.run k s = core.run s.inFlight.length s)

/-- R165, with the model's own choice (log 2) that a presented request is accepted at once and stands behind those in flight:
it changes no response before its own. -/
def Obligations.PresentedRequestsWaitTheirTurn : Prop :=
  ∀ (s : State) (q : Request), s.inFlight ≠ [] →
    ∃ t : State, step s = .next t ∧ step (s.present q) = .next (t.present q)

/-- R23, R24, I7: in every state whose output ports are well shaped, a step leaves them well shaped: they are those of no
response, of IllegalCommand or of one operation; every signed 16-bit port lies in [-508, 508]; no NaN stands on a `d.*` or
`e.*` port. -/
def Obligations.StepKeepsPortsOk : Prop :=
  ∀ s t : State, s.PortsOk → step s = .next t → t.PortsOk

/-- R31: the ports right after reset are well shaped. -/
def Obligations.ResetPortsOk : Prop :=
  State.reset.PortsOk
end

