-- ==== Sys2Proof/Laws/Binary32.lean ====
section
/-! SUPPORT. What rounding and the three operations answer on finite values. -/

namespace Sys2Proof.Machine

/-- The spacing is at least one unit. -/
theorem spacing_pos (q : Nat) : 0 < spacing q := by
  unfold spacing; split
  · exact Nat.one_pos
  · exact Nat.two_pow_pos _

/-- A quotient rounded to nearest is the quotient or one more. -/
theorem divNearestEven_cases (num den : Nat) :
    divNearestEven num den = num / den ∨ divNearestEven num den = num / den + 1 := by
  unfold divNearestEven; simp only; split_ifs <;> simp

/-- An exact quotient is not changed by rounding. -/
theorem divNearestEven_mul {den : Nat} (h : 0 < den) (k : Nat) : divNearestEven (k * den) den = k := by
  simp [divNearestEven, Nat.mul_div_cancel _ h, h]

/-- The rounded quotient is nearest: twice the distance to the exact one is at most the divisor. -/
theorem divNearestEven_near {den : Nat} (h : 0 < den) (num : Nat) :
    2 * num ≤ (2 * divNearestEven num den + 1) * den ∧ 2 * divNearestEven num den * den ≤ 2 * num + den := by
  have hd := Nat.div_add_mod num den
  have hm := Nat.mod_lt num h
  unfold divNearestEven
  set q := num / den
  set r := num % den
  simp only
  split_ifs <;> constructor <;> nlinarith

/-- Rounding to nearest keeps order. -/
theorem divNearestEven_mono {den : Nat} (h : 0 < den) {a b : Nat} (hab : a ≤ b) :
    divNearestEven a den ≤ divNearestEven b den := by
  have ha := Nat.div_add_mod a den
  have hb := Nat.div_add_mod b den
  have hma := Nat.mod_lt a h
  have hmb := Nat.mod_lt b h
  have hq : a / den ≤ b / den := Nat.div_le_div_right hab
  rcases Nat.lt_or_ge (a / den) (b / den) with hlt | hge
  · rcases divNearestEven_cases a den with h1 | h1 <;> rcases divNearestEven_cases b den with h2 | h2 <;> omega
  · have he : a / den = b / den := le_antisymm hq hge
    have hr : a % den ≤ b % den := by rw [he] at ha; omega
    unfold divNearestEven
    rw [he]
    simp only
    split_ifs <;> omega

/-- Rounding never gives a NaN. -/
theorem rne32_ne_nan (neg : Bool) (num den : Nat) : rne32 neg num den ≠ .nan := by
  simp only [rne32]; split <;> simp

/-- A magnitude below the overflow bound is rounded to a finite value of the same sign. -/
theorem rne32_finite {neg : Bool} {num den : Nat} (h : roundUnits num den < overflowUnits) :
    rne32 neg num den = .finite neg (roundUnits num den) := by
  simp [rne32, h]

/-- A magnitude from the overflow bound up is rounded to an infinity of the same sign. -/
theorem rne32_inf {neg : Bool} {num den : Nat} (h : overflowUnits ≤ roundUnits num den) :
    rne32 neg num den = .inf neg := by
  simp [rne32, Nat.not_lt.mpr h]

/-- The sum, difference or fraction of a finite value is no NaN, so only an infinite or NaN total can give one. -/
theorem mulf_finite_ne_nan (a b : Bool) (m n : Nat) : mulf (.finite a m) (.finite b n) ≠ .nan :=
  rne32_ne_nan _ _ _

/-- Dividing anything but a NaN by a finite value that is not zero gives no NaN. -/
theorem divf_ne_nan {x : Binary32} (hx : x ≠ .nan) (b : Bool) {n : Nat} (hn : n ≠ 0) :
    divf x (.finite b n) ≠ .nan := by
  cases x with
  | nan => exact absurd rfl hx
  | inf a => simp [divf]
  | finite a m => simp only [divf, hn, if_false]; exact rne32_ne_nan _ _ _

/-- Subtracting anything but a NaN from a finite value gives no NaN. -/
theorem subf_finite_ne_nan (a : Bool) (m : Nat) {y : Binary32} (hy : y ≠ .nan) : subf (.finite a m) y ≠ .nan := by
  cases y with
  | nan => exact absurd rfl hy
  | inf b => simp [subf]
  | finite b n =>
    simp only [subf]
    split
    · simp
    · exact rne32_ne_nan _ _ _

/-- The number of units in 1 is not zero. -/
theorem unitsOfOne_pos : 0 < unitsOfOne := Nat.two_pow_pos _

/-- The fraction of a finite total is no NaN. -/
theorem fracPart_finite_ne_nan (a : Bool) (m h : Nat) : fracPart (.finite a m) h ≠ .nan :=
  divf_ne_nan (mulf_finite_ne_nan _ _ _ _) _
    (Nat.mul_ne_zero (by positivity) (Nat.pos_iff_ne_zero.mp unitsOfOne_pos))

/-- The split of a finite total is no NaN. -/
theorem emSplit_finite_ne_nan (a : Bool) (m : Nat) (hoe4 : BitVec 4) : emSplit (.finite a m) hoe4 ≠ .nan := by
  unfold emSplit; split
  · exact fracPart_finite_ne_nan _ _ _
  · exact subf_finite_ne_nan _ _ (fracPart_finite_ne_nan _ _ _)

/-- The pattern of a value that is no NaN does not depend on the draw. -/
theorem bits32_draw_irrelevant {x : Binary32} (h : x ≠ .nan) (d d' : Nat) : bits32 d x = bits32 d' x := by
  cases x with
  | nan => exact absurd rfl h
  | inf _ => rfl
  | finite _ _ => rfl

/-- A quotient of at most 24 significant bits rounds to itself. -/
theorem roundUnits_exact {k e : Nat} (hk : k < 2 ^ 24) {den : Nat} (hd : 0 < den) :
    roundUnits (k * 2 ^ e * den) den = k * 2 ^ e := by
  have hdvd : spacing (k * 2 ^ e) ∣ k * 2 ^ e := by
    unfold spacing
    split_ifs with h
    · exact one_dvd _
    · have hne : k * 2 ^ e ≠ 0 := by
        intro h0; rw [h0] at h; exact h (by norm_num)
      have hle : (k * 2 ^ e).log2 - 23 ≤ e := by
        have h2 : k * 2 ^ e < 2 ^ (24 + e) := by
          rw [Nat.pow_add]; exact Nat.mul_lt_mul_of_pos_right hk (Nat.two_pow_pos _)
        have := (Nat.log2_lt hne).mpr h2
        omega
      exact Dvd.dvd.mul_left (Nat.pow_dvd_pow 2 hle) k
  unfold roundUnits
  simp only [Nat.mul_div_cancel _ hd]
  obtain ⟨c, hc⟩ := hdvd
  have hpos := spacing_pos (k * 2 ^ e)
  generalize spacing (k * 2 ^ e) = u at *
  rw [hc, show u * c * den = c * (den * u) by ring, divNearestEven_mul (Nat.mul_pos hd hpos), Nat.mul_comm]

/-- The product of a representable magnitude and a power of two is exact. -/
theorem roundUnits_product {k e : Nat} (hk : k < 2 ^ 24) (h : Nat) :
    roundUnits (k * 2 ^ e * (2 ^ h * unitsOfOne)) unitsOfOne = k * 2 ^ e * 2 ^ h := by
  have := roundUnits_exact (e := e + h) hk unitsOfOne_pos
  rw [Nat.pow_add, ← Nat.mul_assoc] at this
  rwa [← Nat.mul_assoc]

/-- `pt * 0.5` is exact: `pt` counts of 2^148 units (R69). -/
theorem ptFloat_eq {pt : Nat} (h : pt < 2 ^ 12) : ptFloat pt = .finite false (pt * 2 ^ 148) := by
  have hr : roundUnits (pt * unitsOfOne * 2 ^ 148) unitsOfOne = pt * 2 ^ 148 := by
    have := roundUnits_exact (k := pt) (e := 148) (by omega) unitsOfOne_pos
    rwa [show pt * unitsOfOne * 2 ^ 148 = pt * 2 ^ 148 * unitsOfOne by ring]
  have hlt : pt * 2 ^ 148 < overflowUnits := by
    have h2 : overflowUnits = 2 ^ 129 * 2 ^ 148 := by norm_num [overflowUnits, unitsOfOne]
    rw [h2]
    exact Nat.mul_lt_mul_of_pos_right (lt_trans h (by norm_num)) (Nat.two_pow_pos _)
  show rne32 (false ^^ false) _ _ = _
  rw [rne32_finite (by rw [hr]; exact hlt), hr]
  rfl

end Sys2Proof.Machine
end

