-- ==== Sys2Proof/Laws/Bits.lean ====
section
/-! SUPPORT. The integer helpers in terms of bit vectors: what each field operation is, bit by bit. -/

namespace Sys2Proof.Machine

/-- `trunc` of a natural number is its remainder. -/
@[simp] theorem trunc_natCast (w n : Nat) : trunc w (n : Int) = n % 2 ^ w := by
  simp only [trunc]
  rw [show ((2 : Int) ^ w) = ((2 ^ w : Nat) : Int) by push_cast; rfl, ← Int.natCast_emod, Int.toNat_natCast]

/-- A truncated value fits its width. -/
theorem trunc_lt (w : Nat) (v : Int) : trunc w v < 2 ^ w := by
  have h2 : (0 : Int) < (2 : Int) ^ w := by positivity
  have h := Int.emod_lt_of_pos v h2
  have h0 := Int.emod_nonneg v (ne_of_gt h2)
  simp only [trunc]
  zify
  rw [Int.toNat_of_nonneg h0]
  exact h

/-- An extracted field as a bit slice of the word. -/
theorem extractUnsigned_eq (w : Word) (off wid : Nat) : extractUnsigned w off wid = (w.extractLsb' off wid).toNat := by
  simp [extractUnsigned, BitVec.extractLsb'_toNat, Nat.and_two_pow_sub_one_eq_mod]

/-- An extracted field as a quotient and a remainder (R8). -/
theorem extractUnsigned_eq_div_mod (w : Word) (off wid : Nat) :
    extractUnsigned w off wid = w.toNat / 2 ^ off % 2 ^ wid := by
  simp [extractUnsigned, Nat.and_two_pow_sub_one_eq_mod, Nat.shiftRight_eq_div_pow]

/-- An extracted field fits its width. -/
theorem extractUnsigned_lt (w : Word) (off wid : Nat) : extractUnsigned w off wid < 2 ^ wid := by
  rw [extractUnsigned_eq]; exact BitVec.isLt _

/-- The signed reading of a pattern. -/
theorem tc_toNat {w : Nat} (hw : 0 < w) (x : BitVec w) : tc w x.toNat = x.toInt := by
  have hp : 2 ^ w = 2 * 2 ^ (w - 1) := by rw [← Nat.pow_succ']; congr 1; omega
  have hlt := x.isLt
  unfold tc
  rw [BitVec.toInt_eq_toNat_cond]
  split <;> split <;> first | omega | (push_cast; rfl)

/-- `s64` is the signed reading of a word. -/
@[simp] theorem s64_eq_toInt (x : Word) : s64 x = x.toInt := tc_toNat (by decide) x

/-- The two's-complement-like reading of a field. -/
theorem extractTwosComplementLike_eq (w : Word) (off : Nat) {wid : Nat} (h : 0 < wid) :
    extractTwosComplementLike w off wid = (w.extractLsb' off wid).toInt := by
  rw [extractTwosComplementLike, extractUnsigned_eq, tc_toNat h]

/-- A packed value as the low bits of the input. -/
theorem packUnsigned_eq (v : Word) (wid : Nat) : packUnsigned v wid = (v.setWidth wid).toNat := by
  simp [packUnsigned]

/-- A placed field, bit by bit. -/
theorem getLsbD_place {b off : Nat} (k : Nat) :
    (place b off).getLsbD k = (decide (k < 64) && decide (off ≤ k) && b.testBit (k - off)) := by
  simp [place, BitVec.getLsbD_ofNat, Nat.testBit_mul_two_pow, Bool.and_assoc]

/-- A placed packed value, bit by bit. -/
theorem getLsbD_place_packUnsigned (v : Word) (wid off k : Nat) :
    (place (packUnsigned v wid) off).getLsbD k =
      (decide (k < 64) && decide (off ≤ k) && (decide (k - off < wid) && v.getLsbD (k - off))) := by
  rw [getLsbD_place, packUnsigned_eq, BitVec.testBit_toNat, BitVec.getLsbD_setWidth]

/-- A one-bit value, bit by bit. -/
theorem testBit_bitValue (b : Bool) (j : Nat) : (bitValue b).testBit j = (decide (j = 0) && b) := by
  cases b <;> cases j <;> simp [bitValue, Nat.testBit_succ]

/-- The magnitude of a word read as signed. -/
theorem natAbs_toInt_eq (x : Word) : x.toInt.natAbs = (if x.msb then -x else x).toNat := by
  rw [BitVec.toInt_eq_msb_cond]
  have := x.isLt
  cases h : x.msb with
  | false => simp
  | true =>
    have h' := BitVec.msb_eq_true_iff_two_mul_ge.mp h
    simp only [↓reduceIte, BitVec.toNat_neg]
    omega

/-- The magnitude part of a packed sign-magnitude value. -/
theorem packSignMagnitude_mag (x : Word) (wid : Nat) :
    (packSignMagnitude x.toInt wid).2 = ((if x.msb then -x else x).setWidth wid).toNat := by
  simp [packSignMagnitude, natAbs_toInt_eq]

end Sys2Proof.Machine
end

