-- ==== Sys2Proof/Laws/Decode.lean ====
section
/-! SUPPORT. The fields of a command word that the encoder lays out, and what the decoder's checks answer. -/

namespace Sys2Proof

section fields

variable (op : BitVec 5) (off : Position) (wid : WidthField) (sbp : Position)

/-- A laid-out command, bit by bit. -/
theorem getLsbD_commandWord (k : Nat) :
    (commandWord op off wid sbp).getLsbD k =
      if k < 5 then op.getLsbD k else if k < 11 then off.getLsbD (k - 5)
      else if k < 18 then wid.getLsbD (k - 11) else sbp.getLsbD (k - 18) := by
  change BitVec.getLsbD ((0 : BitVec 8) ++ sbp ++ wid ++ off ++ op) k = _
  simp only [BitVec.getLsbD_append, Nat.sub_sub]
  by_cases h5 : k < 5
  · simp [h5]
  by_cases h11 : k < 11
  · simp [h5, h11, show k - 5 < 6 by omega]
  by_cases h18 : k < 18
  · simp [h5, h11, h18, show ¬k - 5 < 6 by omega, show k - 11 < 7 by omega]
  by_cases h24 : k < 24
  · simp [h5, h11, h18, show ¬k - 5 < 6 by omega, show ¬k - 11 < 7 by omega, show k - 18 < 6 by omega]
  · simp [h5, h11, h18, show ¬k - 5 < 6 by omega, show ¬k - 11 < 7 by omega, show ¬k - 18 < 6 by omega,
      BitVec.getLsbD_of_ge sbp (k - 18) (by omega)]

/-- OP of a laid-out command. -/
@[simp] theorem cmdOp_commandWord : cmdOp (commandWord op off wid sbp) = op := by
  apply BitVec.eq_of_getLsbD_eq
  intro k hk
  simp only [cmdOp, BitVec.getLsbD_extractLsb', getLsbD_commandWord]
  simp [hk]

/-- OFF of a laid-out command. -/
@[simp] theorem cmdOff_commandWord : cmdOff (commandWord op off wid sbp) = off := by
  apply BitVec.eq_of_getLsbD_eq
  intro k hk
  simp only [cmdOff, BitVec.getLsbD_extractLsb', getLsbD_commandWord]
  simp [hk, show 5 + k < 11 by omega]

/-- WID of a laid-out command. -/
@[simp] theorem cmdWid_commandWord : cmdWid (commandWord op off wid sbp) = wid := by
  apply BitVec.eq_of_getLsbD_eq
  intro k hk
  simp only [cmdWid, BitVec.getLsbD_extractLsb', getLsbD_commandWord]
  simp [hk, show ¬11 + k < 5 by omega, show 11 + k < 18 by omega]

/-- SBP of a laid-out command. -/
@[simp] theorem cmdSbp_commandWord : cmdSbp (commandWord op off wid sbp) = sbp := by
  apply BitVec.eq_of_getLsbD_eq
  intro k hk
  simp only [cmdSbp, BitVec.getLsbD_extractLsb', getLsbD_commandWord]
  simp [hk, show ¬18 + k < 5 by omega, show ¬18 + k < 11 by omega]

/-- RSV of a laid-out command. -/
@[simp] theorem cmdRsv_commandWord : cmdRsv (commandWord op off wid sbp) = 0 := by
  apply BitVec.eq_of_getLsbD_eq
  intro k hk
  simp only [cmdRsv, BitVec.getLsbD_extractLsb', getLsbD_commandWord]
  simp [show ¬24 + k < 5 by omega, show ¬24 + k < 11 by omega, show ¬24 + k < 18 by omega,
    BitVec.getLsbD_of_ge sbp (24 + k - 18) (by omega)]

end fields

/-- A command with RSV zero is laid out from its four other fields. -/
theorem command_eq_commandWord {cmd : Command} (h : cmdRsv cmd = 0) :
    cmd = commandWord (cmdOp cmd) (cmdOff cmd) (cmdWid cmd) (cmdSbp cmd) := by
  apply BitVec.eq_of_getLsbD_eq
  intro k hk
  have hr : ∀ j, 24 ≤ j → j < 32 → cmd.getLsbD j = false := fun j h1 h2 => by
    have := congrArg (fun x => x.getLsbD (j - 24)) h
    simpa [cmdRsv, BitVec.getLsbD_extractLsb', show j - 24 < 8 by omega, show 24 + (j - 24) = j by omega] using this
  simp only [getLsbD_commandWord, cmdOp, cmdOff, cmdWid, cmdSbp, BitVec.getLsbD_extractLsb']
  split_ifs with h5 h11 h18
  · simp [h5]
  · simp [show k - 5 < 6 by omega, show 5 + (k - 5) = k by omega]
  · simp [show k - 11 < 7 by omega, show 11 + (k - 11) = k by omega]
  · by_cases h24 : k < 24
    · simp [show k - 18 < 6 by omega, show 18 + (k - 18) = k by omega]
    · simp [show ¬k - 18 < 6 by omega, hr k (by omega) hk]

variable {cmd : Command} {i : Instr}

/-- When an OFF and WID command is accepted. -/
theorem usesOffWid_eq_ok {mk : Position → WidthField → Instr} :
    usesOffWid cmd mk = .ok i ↔ cmdSbp cmd = 0 ∧ mk (cmdOff cmd) (cmdWid cmd) = i := by
  unfold usesOffWid; split <;> simp_all

/-- When a WID command is accepted. -/
theorem usesWid_eq_ok {mk : WidthField → Instr} :
    usesWid cmd mk = .ok i ↔ cmdOff cmd = 0 ∧ cmdSbp cmd = 0 ∧ mk (cmdWid cmd) = i := by
  unfold usesWid; split <;> simp_all

/-- When a command without fields is accepted. -/
theorem usesNone_eq_ok {j : Instr} :
    usesNone cmd j = .ok i ↔ cmdOff cmd = 0 ∧ cmdWid cmd = 0 ∧ cmdSbp cmd = 0 ∧ j = i := by
  unfold usesNone; split <;> simp_all

end Sys2Proof
end

