-- ==== Sys2Proof/Laws/State.lean ====
section
/-! SUPPORT. One lemma per field per update of the state. -/

namespace Sys2Proof.Machine

variable (s : State) (q : Request) (rest : List Request) (r : Response) (nbits w : Nat) (cmd : Command)

@[simp] theorem reset_inFlight : State.reset.inFlight = [] := rfl
@[simp] theorem reset_out : State.reset.out = {} := rfl
@[simp] theorem reset_draws : State.reset.draws = 0 := rfl

@[simp] theorem answered_inFlight : (s.answered rest r).inFlight = rest := rfl
@[simp] theorem answered_out : (s.answered rest r).out = r := rfl
@[simp] theorem answered_draws : (s.answered rest r).draws = s.draws + 1 := rfl

@[simp] theorem present_inFlight : (s.present q).inFlight = s.inFlight ++ [q] := rfl
@[simp] theorem present_out : (s.present q).out = s.out := rfl
@[simp] theorem present_draws : (s.present q).draws = s.draws := rfl

@[simp] theorem resetSignal_inFlight : s.resetSignal.inFlight = [] := rfl
@[simp] theorem resetSignal_out : s.resetSignal.out = {} := rfl
@[simp] theorem resetSignal_draws : s.resetSignal.draws = s.draws := rfl

@[simp] theorem withFetchWord_inFlight :
    (s.withFetchWord nbits w).inFlight = placeCommand (tableCommand nbits w) s.inFlight := rfl
@[simp] theorem withFetchWord_out : (s.withFetchWord nbits w).out = s.out := rfl
@[simp] theorem withFetchWord_draws : (s.withFetchWord nbits w).draws = s.draws := rfl

@[simp] theorem placeCommand_nil : placeCommand cmd [] = [bareRequest cmd] := rfl
@[simp] theorem placeCommand_cons : placeCommand cmd (q :: rest) = { q with cmd := cmd } :: rest := rfl
@[simp] theorem bareRequest_cmd : (bareRequest cmd).cmd = cmd := rfl
@[simp] theorem bareRequest_a : (bareRequest cmd).a = 0 := rfl
@[simp] theorem bareRequest_b : (bareRequest cmd).b = 0 := rfl

@[simp] theorem illegalResponse_illegal : illegalResponse.illegal = some true := rfl
@[simp] theorem illegalResponse_d : illegalResponse.d = {} := rfl
@[simp] theorem illegalResponse_e : illegalResponse.e = {} := rfl

/-- The next command is that of the oldest request in flight. -/
theorem nextCommand?_of_pending {s : State} (h : s.inFlight = q :: rest) : s.nextCommand? = some q.cmd := by
  simp [State.nextCommand?, h]

/-- With no request in flight there is no next command. -/
theorem nextCommand?_of_idle {s : State} (h : s.inFlight = []) : s.nextCommand? = none := by
  simp [State.nextCommand?, h]

end Sys2Proof.Machine
end

