-- ==== Sys2Proof/Laws/Ops.lean ====
section
/-! SUPPORT. What each shared operation can do, said once. -/

namespace Sys2Proof.Machine

variable {s t : State} {q : Request} {rest : List Request} {f : Request → Nat → Response}

/-- The answer to a pending request. -/
theorem answer_pending (h : s.inFlight = q :: rest) (f : Request → Nat → Response) :
    answer s f = .next (s.answered rest (f q s.draws)) := by
  simp [answer, h, State.answered]

/-- With no request in flight an answer changes nothing. -/
theorem answer_idle (h : s.inFlight = []) (f : Request → Nat → Response) : answer s f = .next s := by
  simp [answer, h]

/-- Everything an answer can do. -/
theorem answer_cases (h : answer s f = .next t) :
    (s.inFlight = [] ∧ t = s) ∨
      ∃ q rest, s.inFlight = q :: rest ∧ t = s.answered rest (f q s.draws) := by
  cases hs : s.inFlight with
  | nil => rw [answer_idle hs] at h; cases h; exact .inl ⟨rfl, rfl⟩
  | cons q rest => rw [answer_pending hs] at h; cases h; exact .inr ⟨q, rest, rfl, rfl⟩

/-- Taking IllegalCommand on a pending request. -/
theorem raiseIllegalCommand_pending (h : s.inFlight = q :: rest) :
    raiseIllegalCommand s = .next (s.answered rest illegalResponse) := answer_pending h _

/-- An operation with a constraint, on a pending request: its answer, or IllegalCommand. -/
theorem answerLegal_pending (h : s.inFlight = q :: rest) (ok : Bool) (f : Request → Nat → Response) :
    answerLegal ok s f = .next (s.answered rest (if ok then f q s.draws else illegalResponse)) := by
  cases ok <;> simp [answerLegal, answer_pending h, raiseIllegalCommand_pending h]

/-- With no request in flight an operation with a constraint changes nothing. -/
theorem answerLegal_idle (h : s.inFlight = []) (ok : Bool) (f : Request → Nat → Response) :
    answerLegal ok s f = .next s := by
  cases ok <;> simp [answerLegal, raiseIllegalCommand, answer_idle h]

/-- A read of a port gives its pattern exactly where the port holds a value. -/
theorem readPort_eq_ok {p : OutPort} {v : Nat} : readPort s p = .ok v ↔ s.out.read p = some v := by
  unfold readPort; split <;> simp_all

/-- A read of a port faults exactly where the port holds no value. -/
theorem readPort_eq_error {p : OutPort} :
    readPort s p = .error (.portHoldsNoValue p) ↔ s.out.read p = none := by
  unfold readPort; split <;> simp_all

/-- No port of an empty response holds a value. -/
@[simp] theorem read_empty (p : OutPort) : Response.read {} p = none := by cases p <;> rfl

/-- The step on a pending request whose command decodes. -/
theorem step_of_decode {i : Instr} (h : s.inFlight = q :: rest) (hd : decode q.cmd = .ok i) : step s = exec i s := by
  simp [step, nextCommand?_of_pending q rest h, hd]

/-- The step on a pending request whose command does not decode. -/
theorem step_of_decode_error {e : DecodeError} (h : s.inFlight = q :: rest) (hd : decode q.cmd = .error e) :
    step s = .next (s.answered rest illegalResponse) := by
  simp [step, nextCommand?_of_pending q rest h, hd, raiseIllegalCommand_pending h]

/-- The step with no request in flight. -/
theorem step_idle (h : s.inFlight = []) : step s = .next s := by
  simp [step, nextCommand?_of_idle h]

end Sys2Proof.Machine
end

