-- ==== Sys2Proof/Laws/Exec.lean ====
section
/-! SUPPORT. What each operation answers to a pending request, in the terms of its own definition. -/

namespace Sys2Proof.Machine

variable {s : State} {q : Request} {rest : List Request}

theorem exec_fpExtu (h : s.inFlight = q :: rest) (off : Position) (wid : WidthField) :
    exec (.fpExtu off wid) s = .next (s.answered rest
      (if (Instr.fpExtu off wid).wellFormed then
        { illegal := some false
          ival := signedPort 65 (extractUnsigned (wordA q) off.toNat wid.toNat) }
      else illegalResponse)) :=
  answerLegal_pending h _ _

theorem exec_fpExtsm (h : s.inFlight = q :: rest) (off : Position) (wid : WidthField) (sbp : Position) :
    exec (.fpExtsm off wid sbp) s = .next (s.answered rest
      (if (Instr.fpExtsm off wid sbp).wellFormed then
        { illegal := some false
          ival := signedPort 65 (extractSignMagnitude (wordA q) off.toNat sbp.toNat wid.toNat) }
      else illegalResponse)) :=
  answerLegal_pending h _ _

theorem exec_fpExttc (h : s.inFlight = q :: rest) (off : Position) (wid : WidthField) :
    exec (.fpExttc off wid) s = .next (s.answered rest
      (if (Instr.fpExttc off wid).wellFormed then
        { illegal := some false
          ival := signedPort 65 (extractTwosComplementLike (wordA q) off.toNat wid.toNat) }
      else illegalResponse)) :=
  answerLegal_pending h _ _

theorem exec_fpPacku (h : s.inFlight = q :: rest) (off : Position) (wid : WidthField) :
    exec (.fpPacku off wid) s = .next (s.answered rest
      (if (Instr.fpPacku off wid).wellFormed then
        { illegal := some false
          word := some (place (packUnsigned (wordA q) wid.toNat) off.toNat) }
      else illegalResponse)) :=
  answerLegal_pending h _ _

theorem exec_smEnc (h : s.inFlight = q :: rest) (wid : WidthField) :
    exec (.smEnc wid) s = .next (s.answered rest
      (if (Instr.smEnc wid).wellFormed then
        { illegal := some false
          sign := some (packSignMagnitude (signedA q) wid.toNat).1
          mag := unsignedPort 64 (packSignMagnitude (signedA q) wid.toNat).2 }
      else illegalResponse)) :=
  answerLegal_pending h _ _

theorem exec_smDec (h : s.inFlight = q :: rest) (wid : WidthField) :
    exec (.smDec wid) s = .next (s.answered rest
      (if (Instr.smDec wid).wellFormed then
        { illegal := some false
          ival := signedPort 65 (smValue (signB q) (packUnsigned (wordA q) wid.toNat)) }
      else illegalResponse)) :=
  answerLegal_pending h _ _

theorem exec_encPf (h : s.inFlight = q :: rest) :
    exec .encPf s = .next (s.answered rest { illegal := some false, word := some (encodePf q.f) }) := by
  simp only [exec, execEncPf, answer_pending h]

theorem exec_encV1 (h : s.inFlight = q :: rest) :
    exec .encV1 s = .next (s.answered rest { illegal := some false, word := some (encodeV1 q.f) }) := by
  simp only [exec, execEncV1, answer_pending h]

theorem exec_encV2 (h : s.inFlight = q :: rest) :
    exec .encV2 s = .next (s.answered rest { illegal := some false, word := some (encodeV1 q.f), region := some q.f.region }) := by
  simp only [exec, execEncV2, answer_pending h]

theorem exec_encV3 (h : s.inFlight = q :: rest) :
    exec .encV3 s = .next (s.answered rest { illegal := some false, word := some (encodeV3 q.f) }) := by
  simp only [exec, execEncV3, answer_pending h]

theorem exec_zero (h : s.inFlight = q :: rest) :
    exec .zero s = .next (s.answered rest { illegal := some false, word := some 0 }) := by
  simp only [exec, execZero, answer_pending h]

theorem exec_decPf (h : s.inFlight = q :: rest) :
    exec .decPf s = .next (s.answered rest { illegal := some false, d := decodePf (wordA q) s.draws }) := by
  simp only [exec, execDecPf, answer_pending h]

theorem exec_decV1 (h : s.inFlight = q :: rest) :
    exec .decV1 s = .next (s.answered rest { illegal := some false, d := decodeV1 (wordA q) s.draws }) := by
  simp only [exec, execDecV1, answer_pending h]

theorem exec_decV2 (h : s.inFlight = q :: rest) :
    exec .decV2 s = .next (s.answered rest { illegal := some false, d := decodeV2 (wordA q) q.f.region s.draws }) := by
  simp only [exec, execDecV2, answer_pending h]

theorem exec_decV3 (h : s.inFlight = q :: rest) :
    exec .decV3 s = .next (s.answered rest { illegal := some false, d := decodeV3 (wordA q) s.draws }) := by
  simp only [exec, execDecV3, answer_pending h]

theorem exec_chkPf (h : s.inFlight = q :: rest) :
    exec .chkPf s = .next (s.answered rest (nullBitsResponse .pf q)) := by
  simp only [exec, execChkPf, answer_pending h]

theorem exec_chkV1 (h : s.inFlight = q :: rest) :
    exec .chkV1 s = .next (s.answered rest (nullBitsResponse .v1 q)) := by
  simp only [exec, execChkV1, answer_pending h]

theorem exec_chkV2 (h : s.inFlight = q :: rest) :
    exec .chkV2 s = .next (s.answered rest (nullBitsResponse .v2 q)) := by
  simp only [exec, execChkV2, answer_pending h]

theorem exec_chkV3 (h : s.inFlight = q :: rest) :
    exec .chkV3 s = .next (s.answered rest (nullBitsResponse .v3 q)) := by
  simp only [exec, execChkV3, answer_pending h]

theorem exec_heFrac (h : s.inFlight = q :: rest) :
    exec .heFrac s = .next (s.answered rest { illegal := some false, fval := floatPort s.draws (fracPart (floatA q) (hoeCodeB q)) }) := by
  simp only [exec, execHeFrac, answer_pending h]

theorem exec_heSplit (h : s.inFlight = q :: rest) :
    exec .heSplit s = .next (s.answered rest { illegal := some false, fval := floatPort s.draws (emSplit (floatA q) (hoeFieldB q)) }) := by
  simp only [exec, execHeSplit, answer_pending h]

theorem exec_emuEm (h : s.inFlight = q :: rest) :
    exec .emuEm s = .next (s.answered rest { illegal := some false, e := emuCommon (wordA q) s.draws }) := by
  simp only [exec, execEmuEm, answer_pending h]

theorem exec_emuHad (h : s.inFlight = q :: rest) :
    exec .emuHad s = .next (s.answered rest { illegal := some false, e := emuHad (wordA q) s.draws }) := by
  simp only [exec, execEmuHad, answer_pending h]

end Sys2Proof.Machine
end

