-- ==== Sys2Proof/Laws/FloatPatterns.lean ====
section
/-! SUPPORT. What a binary32 pattern reads as, and that writing a representable value and reading it gives it back. -/

namespace Sys2Proof.Machine

section fields

variable (neg : Bool) (exponent fraction : Nat)

/-- The sign bit of a laid-out pattern. -/
theorem sign_floatPattern : (floatPattern neg exponent fraction).getLsbD 31 = neg := by
  change BitVec.getLsbD (BitVec.ofBool neg ++ BitVec.ofNat 8 exponent ++ BitVec.ofNat 23 fraction) 31 = _
  simp only [BitVec.getLsbD_append]
  simp

/-- The exponent field of a laid-out pattern. -/
theorem exponent_floatPattern :
    (floatPattern neg exponent fraction).extractLsb' 23 8 = BitVec.ofNat 8 exponent := by
  apply BitVec.eq_of_getLsbD_eq
  intro k hk
  rw [BitVec.getLsbD_extractLsb']
  change (decide (k < 8) &&
    BitVec.getLsbD (BitVec.ofBool neg ++ BitVec.ofNat 8 exponent ++ BitVec.ofNat 23 fraction) (23 + k)) = _
  simp only [BitVec.getLsbD_append]
  simp [hk, show 23 + k - 23 = k by omega]

/-- The fraction field of a laid-out pattern. -/
theorem fraction_floatPattern :
    (floatPattern neg exponent fraction).extractLsb' 0 23 = BitVec.ofNat 23 fraction := by
  apply BitVec.eq_of_getLsbD_eq
  intro k hk
  rw [BitVec.getLsbD_extractLsb']
  change (decide (k < 23) &&
    BitVec.getLsbD (BitVec.ofBool neg ++ BitVec.ofNat 8 exponent ++ BitVec.ofNat 23 fraction) (0 + k)) = _
  simp only [BitVec.getLsbD_append]
  simp [hk]

/-- What a laid-out pattern reads as. -/
theorem ofBits_floatPattern (he : exponent < 256) (hf : fraction < 2 ^ 23) :
    Binary32.ofBits (floatPattern neg exponent fraction) =
      if exponent = 255 then (if fraction = 0 then .inf neg else .nan)
      else if exponent = 0 then .finite neg fraction
      else .finite neg ((2 ^ 23 + fraction) * 2 ^ (exponent - 1)) := by
  unfold Binary32.ofBits
  rw [sign_floatPattern, exponent_floatPattern, fraction_floatPattern]
  simp only [BitVec.toNat_ofNat, Nat.mod_eq_of_lt (show exponent < 2 ^ 8 from he), Nat.mod_eq_of_lt hf]

end fields

/-- The overflow threshold as one power of two. -/
theorem overflowUnits_eq : overflowUnits = 2 ^ 277 := by
  unfold overflowUnits unitsOfOne
  rw [← Nat.pow_add]

/-- A magnitude of 24 significant bits that is no subnormal has a significand of exactly 24 bits. -/
theorem exists_significand {m k e : Nat} (hk : k < 2 ^ 24) (hm : m = k * 2 ^ e) (hs : 2 ^ 23 ≤ m) :
    ∃ c, m = c * 2 ^ (m.log2 - 23) ∧ 2 ^ 23 ≤ c ∧ c < 2 ^ 24 := by
  have hm0 : m ≠ 0 := by rintro rfl; exact absurd hs (by norm_num)
  have hl23 : 23 ≤ m.log2 := (Nat.le_log2 hm0).mpr hs
  have hle : m.log2 - 23 ≤ e := by
    have hlt : m < 2 ^ (24 + e) := by
      rw [hm, Nat.pow_add]
      exact Nat.mul_lt_mul_of_pos_right hk (Nat.two_pow_pos _)
    have := (Nat.log2_lt hm0).mpr hlt
    omega
  obtain ⟨c, hc⟩ : 2 ^ (m.log2 - 23) ∣ m := by
    have : 2 ^ (m.log2 - 23) ∣ k * 2 ^ e := Dvd.dvd.mul_left (Nat.pow_dvd_pow 2 hle) k
    rwa [← hm] at this
  refine ⟨c, by rw [Nat.mul_comm]; exact hc, ?_, ?_⟩
  · have : 2 ^ (m.log2 - 23) * 2 ^ 23 ≤ 2 ^ (m.log2 - 23) * c := by
      rw [← hc, ← Nat.pow_add, show m.log2 - 23 + 23 = m.log2 by omega]
      exact Nat.log2_self_le hm0
    exact Nat.le_of_mul_le_mul_left this (Nat.two_pow_pos _)
  · have : 2 ^ (m.log2 - 23) * c < 2 ^ (m.log2 - 23) * 2 ^ 24 := by
      rw [← hc, ← Nat.pow_add, show m.log2 - 23 + 24 = m.log2 + 1 by omega]
      exact Nat.lt_log2_self
    exact Nat.lt_of_mul_lt_mul_left this

/-- Writing a representable value and reading it gives the value. -/
theorem ofBits_bits32_finite (draw : Nat) (neg : Bool) {m : Nat} (h : Representable m) :
    Binary32.ofBits (bits32 draw (.finite neg m)) = .finite neg m := by
  obtain ⟨hlt, k, e, hk, hm⟩ := h
  unfold bits32
  simp only
  split
  · rename_i hs
    rw [ofBits_floatPattern _ _ _ (by decide) hs]
    simp
  · rename_i hs
    obtain ⟨c, hc, h1, h2⟩ := exists_significand hk hm (Nat.not_lt.mp hs)
    have hm0 : m ≠ 0 := by rintro rfl; exact hs (by norm_num)
    have hl : m.log2 < 277 := (Nat.log2_lt hm0).mpr (by rw [← overflowUnits_eq]; exact hlt)
    have hx : m.log2 - 23 < 254 := by clear hc; omega
    generalize m.log2 - 23 = x at *
    have hd : m / 2 ^ x = c := by rw [hc]; exact Nat.mul_div_cancel _ (Nat.two_pow_pos _)
    rw [hd, ofBits_floatPattern _ _ _ (by omega) (by omega), if_neg (by omega), if_neg (by omega),
      show 2 ^ 23 + (c - 2 ^ 23) = c by omega, show x + 1 - 1 = x by omega, ← hc]

/-- Writing an infinity and reading it gives the infinity. -/
theorem ofBits_bits32_inf (draw : Nat) (neg : Bool) : Binary32.ofBits (bits32 draw (.inf neg)) = .inf neg := by
  show Binary32.ofBits (floatPattern neg 255 0) = _
  rw [ofBits_floatPattern _ _ _ (by decide) (by decide)]
  rfl

/-- The finite value that a pattern reads as is representable. -/
theorem representable_of_ofBits {p : FloatBits} {neg : Bool} {m : Nat} (h : Binary32.ofBits p = .finite neg m) :
    Representable m := by
  unfold Binary32.ofBits at h
  simp only at h
  have he := (p.extractLsb' 23 8).isLt
  have hf := (p.extractLsb' 0 23).isLt
  generalize (p.extractLsb' 23 8).toNat = e at *
  generalize (p.extractLsb' 0 23).toNat = f at *
  split_ifs at h with h1 h2 h3
  · cases h
    exact ⟨by rw [overflowUnits_eq]; exact lt_of_lt_of_le hf (Nat.pow_le_pow_right (by decide) (by decide)),
      m, 0, by omega, by simp⟩
  · cases h
    refine ⟨?_, 2 ^ 23 + f, e - 1, by omega, rfl⟩
    rw [overflowUnits_eq]
    calc (2 ^ 23 + f) * 2 ^ (e - 1) < 2 ^ 24 * 2 ^ (e - 1) := Nat.mul_lt_mul_of_pos_right (by omega) (Nat.two_pow_pos _)
      _ = 2 ^ (24 + (e - 1)) := by rw [← Nat.pow_add]
      _ ≤ 2 ^ 277 := Nat.pow_le_pow_right (by decide) (by omega)

end Sys2Proof.Machine
end

