-- ==== Sys2Proof/Laws/PerInstr.lean ====
section
/-! SUPPORT. The family of statements made for each operation: in its command word, RSV and every field the operation does
not use are zero (spec/30_encoding.md R53, conditions (2) and (3)). -/

namespace Sys2Proof.Laws.UnusedFieldsZero

/-- RSV of the operation's command word is zero, and so are the fields it does not use. -/
def Statement (i : Instr) : Prop :=
  cmdRsv (encode i) = 0 ∧
    match i with
    | .fpExtu _ _ => cmdSbp (encode i) = 0
    | .fpExtsm _ _ _ => True
    | .fpExttc _ _ => cmdSbp (encode i) = 0
    | .fpPacku _ _ => cmdSbp (encode i) = 0
    | .smEnc _ => cmdOff (encode i) = 0 ∧ cmdSbp (encode i) = 0
    | .smDec _ => cmdOff (encode i) = 0 ∧ cmdSbp (encode i) = 0
    | .encPf | .encV1 | .encV2 | .encV3 | .decPf | .decV1 | .decV2 | .decV3 | .chkPf | .chkV1 | .chkV2 | .chkV3
    | .zero | .heFrac | .heSplit | .emuEm | .emuHad =>
      cmdOff (encode i) = 0 ∧ cmdWid (encode i) = 0 ∧ cmdSbp (encode i) = 0

theorem fpExtu (off : Position) (wid : WidthField) : Statement (.fpExtu off wid) := by simp [Statement, encode]
theorem fpExtsm (off : Position) (wid : WidthField) (sbp : Position) : Statement (.fpExtsm off wid sbp) := by
  simp [Statement, encode]
theorem fpExttc (off : Position) (wid : WidthField) : Statement (.fpExttc off wid) := by simp [Statement, encode]
theorem fpPacku (off : Position) (wid : WidthField) : Statement (.fpPacku off wid) := by simp [Statement, encode]
theorem smEnc (wid : WidthField) : Statement (.smEnc wid) := by simp [Statement, encode]
theorem smDec (wid : WidthField) : Statement (.smDec wid) := by simp [Statement, encode]
theorem encPf : Statement .encPf := by simp [Statement, encode]
theorem encV1 : Statement .encV1 := by simp [Statement, encode]
theorem encV2 : Statement .encV2 := by simp [Statement, encode]
theorem encV3 : Statement .encV3 := by simp [Statement, encode]
theorem decPf : Statement .decPf := by simp [Statement, encode]
theorem decV1 : Statement .decV1 := by simp [Statement, encode]
theorem decV2 : Statement .decV2 := by simp [Statement, encode]
theorem decV3 : Statement .decV3 := by simp [Statement, encode]
theorem chkPf : Statement .chkPf := by simp [Statement, encode]
theorem chkV1 : Statement .chkV1 := by simp [Statement, encode]
theorem chkV2 : Statement .chkV2 := by simp [Statement, encode]
theorem chkV3 : Statement .chkV3 := by simp [Statement, encode]
theorem zero : Statement .zero := by simp [Statement, encode]
theorem heFrac : Statement .heFrac := by simp [Statement, encode]
theorem heSplit : Statement .heSplit := by simp [Statement, encode]
theorem emuEm : Statement .emuEm := by simp [Statement, encode]
theorem emuHad : Statement .emuHad := by simp [Statement, encode]

end Sys2Proof.Laws.UnusedFieldsZero
end

