-- ==== Sys2Proof/Laws/Ports.lean ====
section
/-! SUPPORT. What stands on a port, in terms of the bit vector it was computed from; and one step of a run. -/

namespace Sys2Proof.Machine

/-- A bit vector's value on an unsigned port. -/
theorem unsignedPort_toNat {m : Nat} (n : Nat) (x : BitVec m) : unsignedPort n x.toNat = some (x.setWidth n) := by
  simp [unsignedPort]

/-- A bit vector's value on an unsigned port of its own width. -/
@[simp] theorem unsignedPort_toNat_self {n : Nat} (x : BitVec n) : unsignedPort n x.toNat = some x := by
  simp [unsignedPort]

/-- A bit vector's unsigned value on a signed port. -/
theorem signedPort_toNat {m : Nat} (n : Nat) (x : BitVec m) : signedPort n (x.toNat : Int) = some (x.setWidth n) := by
  simp [signedPort, BitVec.ofInt_natCast]

/-- A bit vector's signed value on a signed port. -/
theorem signedPort_toInt {m : Nat} (n : Nat) (x : BitVec m) : signedPort n x.toInt = some (x.signExtend n) := rfl

/-- A sign and a magnitude on a signed port. -/
theorem signedPort_smValue {m : Nat} (n : Nat) (b : Bool) (x : BitVec m) :
    signedPort n (smValue b x.toNat) = some (if b then x.setWidth n else -x.setWidth n) := by
  cases b <;> simp [smValue, signedPort, BitVec.ofInt_neg, BitVec.ofInt_natCast]

/-- One step of a run of any core. -/
theorem core_run_next (M : Host.Core) (k : Nat) (s t : M.State) (h : M.step s = .next t) :
    M.run (k + 1) s = M.run k t := by
  simp only [Host.Core.run, h]

/-- One step of a run of this machine. -/
theorem run_next {k : Nat} {s t : State} (h : step s = .next t) :
    Sys2Proof.core.run (k + 1) s = Sys2Proof.core.run k t :=
  core_run_next Sys2Proof.core k s t h

end Sys2Proof.Machine
end

