-- ==== Sys2Proof/Tests/Slice0.lean ====
section
/-! SUPPORT. The model's own tests. Expected values come from the tables and vectors of spec/ (30_encoding.md, and
95_test_vectors.md, whose vector each comment names) or from hand reading of a rule; none is the model's own answer. The
theorems named `witness_<statement>` show values that meet the hypotheses of that statement together. -/

namespace Sys2Proof.Tests

open Sys2Proof Sys2Proof.Machine

/-! Well-formedness: an ill-formed term for each check, beside the well-formed term at the boundary -/

theorem test_fieldInWord_refuses_past_bit_63 :
    (Instr.fpExtu 63 2).wellFormed = false ∧ (Instr.fpExtu 63 1).wellFormed = true := by decide
theorem test_fieldInWord_refuses_packing_past_bit_63 :
    (Instr.fpPacku 1 64).wellFormed = false ∧ (Instr.fpPacku 0 64).wellFormed = true := by decide
theorem test_signOutsideMagnitude_refuses_the_top_magnitude_bit :
    (Instr.fpExtsm 12 7 18).wellFormed = false ∧ (Instr.fpExtsm 12 7 19).wellFormed = true := by decide
theorem test_signOutsideMagnitude_refuses_the_bottom_magnitude_bit :
    (Instr.fpExtsm 12 7 12).wellFormed = false ∧ (Instr.fpExtsm 12 7 11).wellFormed = true := by decide
theorem test_widthPositive_refuses_zero :
    (Instr.fpExttc 0 0).wellFormed = false ∧ (Instr.fpExttc 0 1).wellFormed = true := by decide
theorem test_widthAtMostWord_refuses_65 :
    (Instr.smEnc 65).wellFormed = false ∧ (Instr.smEnc 64).wellFormed = true ∧
      (Instr.smDec 65).wellFormed = false ∧ (Instr.smDec 64).wellFormed = true := by decide

/-! Decoding: one word for each constructor, written out as RSV SBP WID OFF OP from the tables of R50 and R52 -/

theorem test_decode_fpExtu : decode 0b00000000_000000_0001000_000100_00000#32 = .ok (.fpExtu 4 8) := by decide
theorem test_decode_fpExtsm : decode 0b00000000_010011_0000111_001100_00001#32 = .ok (.fpExtsm 12 7 19) := by decide
theorem test_decode_fpExttc : decode 0b00000000_000000_0000111_010011_00010#32 = .ok (.fpExttc 19 7) := by decide
theorem test_decode_fpPacku : decode 0b00000000_000000_0001100_110100_00011#32 = .ok (.fpPacku 52 12) := by decide
theorem test_decode_smEnc : decode 0b00000000_000000_0111111_000000_00100#32 = .ok (.smEnc 63) := by decide
theorem test_decode_smDec : decode 0b00000000_000000_1000000_000000_00101#32 = .ok (.smDec 64) := by decide
theorem test_decode_encoders :
    decode 0b00000000_000000_0000000_000000_01000#32 = .ok .encPf ∧
      decode 0b00000000_000000_0000000_000000_01001#32 = .ok .encV1 ∧
      decode 0b00000000_000000_0000000_000000_01010#32 = .ok .encV2 ∧
      decode 0b00000000_000000_0000000_000000_01011#32 = .ok .encV3 := by decide
theorem test_decode_decoders :
    decode 0b00000000_000000_0000000_000000_01100#32 = .ok .decPf ∧
      decode 0b00000000_000000_0000000_000000_01101#32 = .ok .decV1 ∧
      decode 0b00000000_000000_0000000_000000_01110#32 = .ok .decV2 ∧
      decode 0b00000000_000000_0000000_000000_01111#32 = .ok .decV3 := by decide
theorem test_decode_checks :
    decode 0b00000000_000000_0000000_000000_10000#32 = .ok .chkPf ∧
      decode 0b00000000_000000_0000000_000000_10001#32 = .ok .chkV1 ∧
      decode 0b00000000_000000_0000000_000000_10010#32 = .ok .chkV2 ∧
      decode 0b00000000_000000_0000000_000000_10011#32 = .ok .chkV3 := by decide
theorem test_decode_zero : decode 0b00000000_000000_0000000_000000_10100#32 = .ok .zero := by decide
theorem test_decode_floats :
    decode 0b00000000_000000_0000000_000000_11000#32 = .ok .heFrac ∧
      decode 0b00000000_000000_0000000_000000_11001#32 = .ok .heSplit ∧
      decode 0b00000000_000000_0000000_000000_11010#32 = .ok .emuEm ∧
      decode 0b00000000_000000_0000000_000000_11011#32 = .ok .emuHad := by decide

/-- The rejections of R53 (1) to (3), from the illegal rows of spec/95 section 2. -/
theorem test_decode_refuses_reserved_bits : decode 0x01000008 = .error (.reservedBitsSet 1) := by decide
theorem test_decode_refuses_unassigned_ops :
    decode 0x06 = .error (.unassignedOp 0x06) ∧ decode 0x07 = .error (.unassignedOp 0x07) ∧
      decode 0x15 = .error (.unassignedOp 0x15) ∧ decode 0x16 = .error (.unassignedOp 0x16) ∧
      decode 0x17 = .error (.unassignedOp 0x17) ∧ decode 0x1C = .error (.unassignedOp 0x1C) ∧
      decode 0x1D = .error (.unassignedOp 0x1D) ∧ decode 0x1E = .error (.unassignedOp 0x1E) ∧
      decode 0x1F = .error (.unassignedOp 0x1F) := by decide
theorem test_decode_refuses_unused_fields :
    decode 0x00040000 = .error .unusedFieldSet ∧ decode 0x00003825 = .error .unusedFieldSet ∧
      decode 0x00000028 = .error .unusedFieldSet ∧ decode 0x00000818 = .error .unusedFieldSet := by decide

/-- The legality column of spec/95 section 2. -/
theorem test_legal_rows :
    [0x00000000, 0x00020000, 0x00000FE0, 0x004C3981, 0x001C3801, 0x00FDF801, 0x00000021, 0x00000802, 0x00020004,
      0x00000014, 0x0000001B].all legal = true := by decide +kernel
theorem test_illegal_rows :
    [0x000017E0, 0x00020020, 0x00040000, 0x00483981, 0x00183801, 0x00020001, 0x00000002, 0x0003F803, 0x00020804,
      0x00003825, 0x00000006, 0x00000007, 0x00000028, 0x00000818, 0x01000008, 0x00000015, 0x0000001C, 0x0000001F].any
      legal = false := by decide +kernel

/-- The host's numbering of a table row's bits is that of `in.cmd`. -/
theorem test_decodeTableWord : decodeTableWord 32 0x004C3981 = some (.fpExtsm 12 7 19) := by decide

/-- The assembler spelling of R55. -/
theorem test_asm : (Instr.fpExtsm 12 7 19).asm = "FP.EXTSM 12, 7, 19" ∧ Instr.encPf.asm = "ENC.PF" := by decide +kernel

/-! Layouts (R60, R66, R67) -/

theorem test_layout_fields_are_disjoint :
    ∀ l ∈ [Layout.pf, .v1, .v2, .v3], l.fields.Pairwise fun x y => x.disjoint y = true := by decide
theorem test_v3_check_starts_inside_brems :
    Layout.v3.fields.any (fun x => x.name == .brems && x.covers Layout.v3.unusedBitsStart) = true := by decide

/-! One request, answered once -/

/-- Field inputs that are all 0: "a field not mentioned in an in.F input is 0" (spec/95). -/
def noFields : FieldPorts := (bareRequest 0).f

/-- The PF fields of vector V-L1. -/
def clusterFields : FieldPorts := { noFields with pt := 0x123, eta := 45, phi := -3, hoe := 9 }

/-- The fields that vector V-L1 adds for the GCT layouts. -/
def gctClusterFields : FieldPorts :=
  { clusterFields with hoeFlag := 2, iso := 5, isoFlag := 3, fb := 33, timing := 17, shapeFlag := 1, brems := 1 }

/-- A request with the given command word and operands. -/
def request (cmd : Command) (a : Word := 0) (b : Word := 0) (f : FieldPorts := noFields) : Request := ⟨cmd, a, b, f⟩

/-- A state with one request in flight. -/
def holding (q : Request) : State := { State.reset with inFlight := [q] }

/-- The number on `out.ival`. -/
def ivalOf (q : Request) : Option Int := (responseTo q 0).ival.map BitVec.toInt

/-- V-F1. -/
theorem test_fpExtu_inner_field : ivalOf (request 0x00004080 0xFEDCBA9876543210) = some 0x21 := by decide
theorem test_fpExtu_whole_word_is_positive :
    ivalOf (request 0x00020000 0xFFFFFFFFFFFFFFFF) = some 18446744073709551615 := by decide

/-- V-F2: sign bit 0 means negative. -/
theorem test_fpExtsm_sign_zero_is_negative : ivalOf (request 0x004C3981 0x2A000) = some (-42) := by decide
theorem test_fpExtsm_sign_below_the_field :
    ivalOf (request 0x0001F821 0xFFFFFFFFFFFFFFFF) = some 9223372036854775807 := by decide

/-- V-F3. -/
theorem test_fpExttc_negative : ivalOf (request 0x00003A62 0x3E80000) = some (-3) := by decide
theorem test_fpExttc_width_64 :
    ivalOf (request 0x00020002 0x8000000000000000) = some (-9223372036854775808) := by decide

/-- V-F4. -/
theorem test_fpPacku_negative : (responseTo (request 0x00003A63 0xFFFFFFFFFFFFFFFD) 0).word = some 0x3E80000 := by decide
theorem test_fpPacku_drops_high_bits : (responseTo (request 0x00002343 0x80) 0).word = some 0 := by decide

/-- V-F5. -/
theorem test_smEnc_truncates_magnitude :
    (responseTo (request 0x00003804 0xFFFFFFFFFFFFFF38) 0).mag = some 72 ∧
      (responseTo (request 0x00003804 0xFFFFFFFFFFFFFF38) 0).sign = some false := by decide
theorem test_smEnc_most_negative :
    (responseTo (request 0x00020004 0x8000000000000000) 0).mag = some 0x8000000000000000 ∧
      (responseTo (request 0x00000004 1) 0).sign = some true := by decide

/-- V-F6. -/
theorem test_smDec_widest_negative :
    ivalOf (request 0x00020005 0xFFFFFFFFFFFFFFFF 0) = some (-18446744073709551615) := by decide
theorem test_smDec_reads_bit_0_of_b :
    ivalOf (request 0x00003805 5 2) = some (-5) ∧ ivalOf (request 0x00003805 0xFF 1) = some 127 := by decide

/-- V-L1, V-C1. -/
theorem test_encPf_word : (responseTo (request 0x8 0 0 clusterFields) 0).word = some 0x27EAD123 := by decide
theorem test_encPf_truncates :
    (responseTo (request 0x8 0 0 { noFields with pt := 0x1FFF, eta := -1, phi := 64, hoe := 16 }) 0).word =
      some 0x207FFFF := by decide

/-- V-L1, V-C2. -/
theorem test_encV1_word : (responseTo (request 0x9 0 0 gctClusterFields) 0).word = some 0x00058C3DA7EAD123 := by decide
theorem test_encV1_truncates :
    (responseTo (request 0x9 0 0 { noFields with iso := 8, timing := 33 }) 0).word = some 0x80000000000 := by decide
theorem test_encV2_word :
    (responseTo (request 0xA 0 0 gctClusterFields) 0).word = some 0x00058C3DA7EAD123 := by decide
theorem test_encV2_passes_region_through (r : Region) :
    ∃ t : State, exec .encV2 (holding (request 0xA 0 0 { noFields with region := r })) = .next t ∧
      t.out.region = some r := ⟨_, rfl, rfl⟩

/-- V-L1, V-C3. -/
theorem test_encV3_word : (responseTo (request 0xB 0 0 gctClusterFields) 0).word = some 0x000B187B483AD123 := by decide
theorem test_encV3_truncates_magnitudes :
    (responseTo (request 0xB 0 0 { noFields with eta := 200, phi := -100 }) 0).word = some 0x24C8000 := by decide

/-- V-C4. -/
theorem test_zero : (responseTo (request 0x14 5 5 gctClusterFields) 0).word = some 0 := by decide

/-- V-D1. -/
theorem test_decPf_angles :
    (responseTo (request 0xC 0x67EAD123) 0).d.phi = some (-3) ∧
      (responseTo (request 0xC 0x67EAD123) 0).d.eta = some 45 := by decide
theorem test_decPf_ptFloat : (responseTo (request 0xC 0x27EAD123) 0).d.ptFloat = some 0x43118000 := by decide +kernel

/-- V-D2, V-L7. -/
theorem test_decV1_angles :
    (responseTo (request 0xD 0x00058C3DA7EAD123) 0).d.phi = some 125 ∧
      (responseTo (request 0xD 0x00058C3DA7EAD123) 0).d.phiTC = some (-3) ∧
      (responseTo (request 0xD 0x000FFFFFFFFFFFFF) 0).d.etaTC = some (-1) := by decide
theorem test_decV1_working_points :
    (responseTo (request 0xD 0x0000001000000000) 0).d.isoStandalone = some false ∧
      (responseTo (request 0xD 0x0000001000000000) 0).d.isoLooseTrack = some true := by decide

/-- V-D3. -/
theorem test_decV2_eta_window :
    (responseTo (request 0xE 0x80000) 0).d.eta = some 128 ∧
      (responseTo (request 0xE 0x80000) 0).d.etaTC = some (-128) ∧
      (responseTo (request 0xE 0x80000) 0).d.phi = some 1 := by decide
theorem test_decV2_passes_region_through (r : Region) :
    ∃ t : State, exec .decV2 (holding (request 0xE 0 0 { noFields with region := r })) = .next t ∧
      t.out.d.region = some r := ⟨_, rfl, rfl⟩

/-- V-D4. -/
theorem test_decV3_angles :
    (responseTo (request 0xF 0x000B187B483AD123) 0).d.eta = some 45 ∧
      (responseTo (request 0xF 0x000B187B483AD123) 0).d.phi = some (-3) ∧
      (responseTo (request 0xF 0x7F000) 0).d.eta = some (-127) := by decide
theorem test_decV3_brems_reaches_bit_52 : (responseTo (request 0xF 0x0010000000000000) 0).d.brems = some 2 := by decide

/-- V-L2, V-D1 to V-D4: the last unused bit and the first, in each layout. -/
theorem test_chkPf :
    (responseTo (request 0x10 0x40000000) 0).ok = some true ∧
      (responseTo (request 0x10 0x80000000) 0).ok = some false := by decide
theorem test_chkV1 :
    (responseTo (request 0x11 0x000FFFFFFFFFFFFF) 0).ok = some true ∧
      (responseTo (request 0x11 0x80058C3DA7EAD123) 0).ok = some false := by decide
theorem test_chkV2 :
    (responseTo (request 0x12 0x00058C3DA7EAD123) 0).ok = some true ∧
      (responseTo (request 0x12 0x0010000000000000) 0).ok = some false := by decide
theorem test_chkV3 :
    (responseTo (request 0x13 0x000FFFFFFBF7FFFF) 0).ok = some true ∧
      (responseTo (request 0x13 0x0010000000000000) 0).ok = some false := by decide

/-- V-L3, V-H1. -/
theorem test_heFrac_rounds :
    (responseTo (request 0x18 0xFFFFFFFF41800000 0x3A) 0).fval = some 0x414CCCCD ∧
      (responseTo (request 0x18 1 0) 0).fval = some 0 := by decide +kernel
theorem test_heFrac_product_overflows :
    (responseTo (request 0x18 0x7F7FFFFF 7) 0).fval = some 0x7F800000 ∧
      (responseTo (request 0x18 0x7F7FFFFF 0) 0).fval = some 0x7EFFFFFF := by decide +kernel

/-- V-L6, V-H2. -/
theorem test_heSplit_both_branches :
    (responseTo (request 0x19 0x41800000 5) 0).fval = some 0x414CCCCD ∧
      (responseTo (request 0x19 0x41800000 4) 0).fval = some 0x404CCCCC := by decide +kernel
theorem test_heSplit_product_overflows :
    (responseTo (request 0x19 0x7F7FFFFF 14) 0).fval = some 0xFF800000 := by decide +kernel

/-- V-L6. -/
theorem test_emuEm_angles :
    (responseTo (request 0x1A 0x2C52A020) 0).e.hwEta = some (-168) ∧
      (responseTo (request 0x1A 0x2C52A020) 0).e.hwPhi = some 20 := by decide
theorem test_emuEm_hwPt : (responseTo (request 0x1A 0x2C52A020) 0).e.hwPt = some 0x41800000 := by decide +kernel
theorem test_emuHad_split_bits :
    (responseTo (request 0x1B 0x2C52A020) 0).e.isEmBigger = some true ∧
      (responseTo (request 0x1B 0x2C52A020) 0).e.hoeCode = some 2 := by decide
theorem test_emuHad_hwEmPt :
    (responseTo (request 0x1B 0x2C52A020) 0).e.hwEmPt = some 0x414CCCCD ∧
      (responseTo (request 0x1B 0x2452A020) 0).e.hwEmPt = some 0x404CCCCC := by decide +kernel

/-- R143, R24: an illegal command; on the rows of spec/95 section 2 every port but `out.illegal` holds no value. -/
theorem test_illegal_command_response :
    responseTo (request 0x000017E0 0xFFFFFFFFFFFFFFFF) 0 = illegalResponse ∧
      responseTo (request 0x00000015) 0 = illegalResponse := ⟨rfl, rfl⟩
theorem test_unwritten_port_faults :
    readPort { holding (request 0) with out := responseTo (request 0x00003804 42) 0 } .ival =
      .error (.portHoldsNoValue .ival) := by decide

/-- `withFetchWord` places the instruction that the next step answers, from reset. -/
theorem test_withFetchWord_from_reset :
    (State.reset.withFetchWord 32 0x004C3981).nextCommand? = some 0x004C3981 := by decide

/-! Witnesses: values that meet the hypotheses of a statement together, at the boundary of each of its clauses -/

/-- The one request of `holding q` is in flight, which is the first hypothesis of most statements. -/
theorem holding_inFlight (q : Request) : (holding q).inFlight = q :: [] := rfl

theorem witness_StepRunsTheDecodedOperation :
    (holding (request 0x004C3981 0x2A000)).inFlight = request 0x004C3981 0x2A000 :: [] ∧
      decode (request 0x004C3981 0x2A000).cmd = .ok (.fpExtsm 12 7 19) := ⟨rfl, by decide⟩
theorem witness_EncodeInvertsDecode : decode 0x0003F803 = .ok (.fpPacku 0 127) := by decide
theorem witness_IllegalCommandResponse :
    (holding (request 0x000017E0)).inFlight = request 0x000017E0 :: [] ∧ legal (request 0x000017E0).cmd = false :=
  ⟨rfl, by decide⟩
theorem witness_IllegalBitIsTheLegalityTest :
    (holding (request 0x00000FE0)).inFlight = request 0x00000FE0 :: [] ∧ legal (request 0x00000FE0).cmd = true :=
  ⟨rfl, by decide⟩
theorem witness_UnwrittenPortsFaultOnRead :
    (holding (request 0x00000FE0)).inFlight = request 0x00000FE0 :: [] ∧ (Instr.fpExtu 63 1).wellFormed = true ∧
      (Instr.fpExtu 63 2).wellFormed = false ∧ OutPort.word ∉ writtenPorts (.fpExtu 63 1) ∧
      OutPort.ival ∈ writtenPorts (.fpExtu 63 1) := ⟨rfl, by decide⟩
theorem witness_IdleStepChangesNothing : State.reset.inFlight = [] := rfl

/-- A command whose unused bits are 0, and one that has SBP or RSV set, for the clause on commands with code 0x00. -/
theorem witness_FpExtuReadsTheField :
    (holding (request 0x00000FE0 1)).inFlight = request 0x00000FE0 1 :: [] ∧
      cmdOp (request 0x00000FE0 1).cmd = 0x00 ∧ cmdSbp (request 0x00000FE0 1).cmd = 0 ∧
      cmdOp (request 0x00040000).cmd = 0x00 ∧ cmdSbp (request 0x00040000).cmd ≠ 0 := ⟨rfl, by decide⟩
theorem witness_FpExtsmReadsSignAndMagnitude :
    (holding (request 0x00FDF801 1)).inFlight = request 0x00FDF801 1 :: [] ∧
      cmdOp (request 0x00FDF801 1).cmd = 0x01 ∧ cmdRsv (request 0x00FDF801 1).cmd = 0 ∧
      cmdOp (request 0x01FDF801).cmd = 0x01 ∧ cmdRsv (request 0x01FDF801).cmd ≠ 0 := ⟨rfl, by decide⟩
theorem witness_FpExttcReadsTwosComplement :
    (holding (request 0x00000802 1)).inFlight = request 0x00000802 1 :: [] ∧
      cmdOp (request 0x00000802 1).cmd = 0x02 ∧ cmdSbp (request 0x00000802 1).cmd = 0 ∧
      cmdOp (request 0x80000802).cmd = 0x02 ∧ cmdRsv (request 0x80000802).cmd ≠ 0 := ⟨rfl, by decide⟩
theorem witness_FpPackuPlacesTheLowBits :
    (holding (request 0x00020003 5)).inFlight = request 0x00020003 5 :: [] ∧
      cmdOp (request 0x00020003 5).cmd = 0x03 ∧ cmdSbp (request 0x00020003 5).cmd = 0 ∧
      cmdOp (request 0x00FC0003).cmd = 0x03 ∧ cmdSbp (request 0x00FC0003).cmd ≠ 0 := ⟨rfl, by decide⟩

/-- off + wid = 64, and the packed word is the word read back (V-F4: 0xABC at offset 52). -/
theorem witness_PackThenExtractUnsigned :
    (52#6).toNat + (12#7).toNat ≤ 64 ∧ (holding (request 0 0xABC)).inFlight = request 0 0xABC :: [] ∧
      (holding (request 0 0xABC0000000000000)).inFlight = request 0 0xABC0000000000000 :: [] ∧
      ∃ t : State, exec (.fpPacku 52 12) (holding (request 0 0xABC)) = .next t ∧
        t.out.word = some (request 0 0xABC0000000000000).a :=
  ⟨by decide, rfl, rfl, _, rfl, by decide⟩
/-- The least value of a 7-bit field, packed at offset 19 (V-C1: phi = -64). -/
theorem witness_PackThenExtractSigned :
    1 ≤ (7#7).toNat ∧ (19#6).toNat + (7#7).toNat ≤ 64 ∧ (holding (request 0 (-64))).inFlight = request 0 (-64) :: [] ∧
      (holding (request 0 0x2000000)).inFlight = request 0 0x2000000 :: [] ∧
      -(2 ^ ((7#7).toNat - 1)) ≤ (request 0 (-64)).a.toInt ∧
      (request 0 (-64)).a.toInt ≤ 2 ^ ((7#7).toNat - 1) - 1 ∧
      ∃ t : State, exec (.fpPacku 19 7) (holding (request 0 (-64))) = .next t ∧
        t.out.word = some (request 0 0x2000000).a :=
  ⟨by decide, by decide, rfl, rfl, by decide, by decide, _, rfl, by decide⟩

theorem witness_SmEncSplitsSignAndMagnitude :
    (holding (request 0x00020004 5)).inFlight = request 0x00020004 5 :: [] ∧
      cmdOp (request 0x00020004 5).cmd = 0x04 ∧ cmdOff (request 0x00020004 5).cmd = 0 ∧
      cmdOp (request 0x00003824).cmd = 0x04 ∧ cmdOff (request 0x00003824).cmd ≠ 0 := ⟨rfl, by decide⟩
theorem witness_SmDecJoinsSignAndMagnitude :
    (holding (request 0x00020005 5)).inFlight = request 0x00020005 5 :: [] ∧
      cmdOp (request 0x00020005 5).cmd = 0x05 ∧ cmdOff (request 0x00020005 5).cmd = 0 ∧
      cmdOp (request 0x00003825).cmd = 0x05 ∧ cmdOff (request 0x00003825).cmd ≠ 0 := ⟨rfl, by decide⟩
/-- The greatest magnitude of a 7-bit field, and the least one that does not fit (V-F5: 127 and 128). -/
theorem witness_SignMagnitudeRoundTrip :
    (7#7).toNat ≤ 64 ∧ (holding (request 0 127)).inFlight = request 0 127 :: [] ∧
      (holding (request 0 127 1)).inFlight = request 0 127 1 :: [] ∧
      (request 0 127).a.toInt.natAbs < 2 ^ (7#7).toNat ∧ ¬(request 0 128).a.toInt.natAbs < 2 ^ (7#7).toNat ∧
      ∃ t : State, exec (.smEnc 7) (holding (request 0 127)) = .next t ∧
        t.out.mag = some (request 0 127 1).a ∧ t.out.sign = some ((request 0 127 1).b.getLsbD 0) :=
  ⟨by decide, rfl, rfl, by decide, by decide, _, rfl, by decide, by decide⟩
/-- Fields that end at bit 63, with sign bits on either side. -/
theorem witness_IvalHoldsTheMathematicalInteger :
    (holding (request 0 5)).inFlight = request 0 5 :: [] ∧ (Instr.fpExtu 1 63).wellFormed = true ∧
      (Instr.fpExtsm 1 63 0).wellFormed = true ∧ (Instr.fpExttc 1 63).wellFormed = true ∧
      (Instr.smDec 63).wellFormed = true := ⟨rfl, by decide⟩

/-- The one legal command of each operation without fields, and a command with its code that has another bit set. -/
theorem witness_EncPfWord :
    (holding (request 0x8)).inFlight = request 0x8 :: [] ∧ cmdOp (request 0x8).cmd = 0x08 ∧
      cmdOp (request 0x28).cmd = 0x08 ∧ (request 0x28).cmd ≠ (0x08 : BitVec 5).setWidth 32 := ⟨rfl, by decide⟩
theorem witness_EncV1AndV2Words :
    (holding (request 0x9)).inFlight = request 0x9 :: [] ∧ cmdOp (request 0x9).cmd = 0x09 ∧
      cmdOp (request 0xA).cmd = 0x0A := ⟨rfl, by decide⟩
theorem witness_EncV3Word :
    (holding (request 0xB)).inFlight = request 0xB :: [] ∧ cmdOp (request 0xB).cmd = 0x0B := ⟨rfl, by decide⟩
theorem witness_EncodersFollowTheFieldTables :
    (holding (request 0xB 0 0 gctClusterFields)).inFlight = request 0xB 0 0 gctClusterFields :: [] := rfl
theorem witness_ZeroWordOfEveryLayout :
    (holding (request 0x14)).inFlight = request 0x14 :: [] ∧ cmdOp (request 0x14).cmd = 0x14 ∧ (request 0x14).a = 0 ∧
      Layout.v3 ≠ .pf :=
  ⟨rfl, by decide⟩
/-- brems 1 passes under GCTWord-v3 and brems 2 does not (V-C3). -/
theorem witness_EncodedWordsPassTheirCheck :
    (holding (request 0xB 0 0 { noFields with brems := 2 })).inFlight =
        request 0xB 0 0 { noFields with brems := 2 } :: [] ∧
      (holding (request 0x13 0x0010000000000000)).inFlight = request 0x13 0x0010000000000000 :: [] ∧
      ∃ t : State, exec Layout.v3.encoder (holding (request 0xB 0 0 { noFields with brems := 2 })) = .next t ∧
        t.out.word = some (request 0x13 0x0010000000000000).a :=
  ⟨rfl, rfl, _, rfl, by decide⟩

theorem witness_DecPfPorts :
    (holding (request 0xC 0x27EAD123)).inFlight = request 0xC 0x27EAD123 :: [] ∧
      cmdOp (request 0xC 0x27EAD123).cmd = 0x0C := ⟨rfl, by decide⟩
theorem witness_DecV1Ports :
    (holding (request 0xD 0x00058C3DA7EAD123)).inFlight = request 0xD 0x00058C3DA7EAD123 :: [] ∧
      cmdOp (request 0xD 0x00058C3DA7EAD123).cmd = 0x0D := ⟨rfl, by decide⟩
theorem witness_DecV2Ports :
    (holding (request 0xE 0x00058C3DA7EAD123)).inFlight = request 0xE 0x00058C3DA7EAD123 :: [] ∧
      cmdOp (request 0xE 0x00058C3DA7EAD123).cmd = 0x0E := ⟨rfl, by decide⟩
theorem witness_DecV3Ports :
    (holding (request 0xF 0x000B187B483AD123)).inFlight = request 0xF 0x000B187B483AD123 :: [] ∧
      cmdOp (request 0xF 0x000B187B483AD123).cmd = 0x0F := ⟨rfl, by decide⟩
/-- Two words that differ at bit 30 only agree on every field bit of PFCrystalWord. -/
theorem witness_DecodersReadFieldBitsOnly :
    (holding (request 0xC 0x27EAD123)).inFlight = request 0xC 0x27EAD123 :: [] ∧
      (request 0xC 0x67EAD123).f.region = (request 0xC 0x27EAD123).f.region ∧
      (request 0xC 0x67EAD123).a ≠ (request 0xC 0x27EAD123).a ∧
      ∀ k, (∃ x ∈ Layout.pf.fields, x.covers k = true) →
        (request 0xC 0x67EAD123).a.getLsbD k = (request 0xC 0x27EAD123).a.getLsbD k := by
  refine ⟨rfl, rfl, by decide, fun k h => ?_⟩
  by_cases hk : k < 64
  · exact (by decide +kernel : ∀ k < 64, (∃ x ∈ Layout.pf.fields, x.covers k = true) →
      (request 0xC 0x67EAD123).a.getLsbD k = (request 0xC 0x27EAD123).a.getLsbD k) k hk h
  · rw [BitVec.getLsbD_of_ge _ k (by omega), BitVec.getLsbD_of_ge _ k (by omega)]
theorem witness_NullBitsChecks :
    (holding (request 0x10)).inFlight = request 0x10 :: [] ∧ cmdOp (request 0x10).cmd = 0x10 ∧
      cmdOp (request 0x11).cmd = 0x11 ∧ cmdOp (request 0x12).cmd = 0x12 ∧ cmdOp (request 0x13).cmd = 0x13 :=
  ⟨rfl, by decide⟩
/-- Bit 29 is the last field bit of PFCrystalWord, beside the gap. -/
theorem witness_GapBitOfThePfWord :
    (holding (request 0xC 0x27EAD123)).inFlight = request 0xC 0x27EAD123 :: [] ∧ Layout.v1 ≠ .pf ∧
      51 < Layout.v1.unusedBitsStart ∧ Layout.pf.fields.any (fun x => x.covers 29) = true := ⟨rfl, by decide⟩
/-- V-L1 and V-C1, with phi at the ends of its range in PFCrystalWord. -/
theorem witness_PfV1V2RoundTrip :
    Layout.pf ≠ .v3 ∧ (holding (request 0x8 0 0 clusterFields)).inFlight = request 0x8 0 0 clusterFields :: [] ∧
      (holding (request 0xC 0x27EAD123)).inFlight = request 0xC 0x27EAD123 :: [] ∧
      -64 ≤ clusterFields.phi.toInt ∧ clusterFields.phi.toInt ≤ 63 ∧
      ∃ t : State, exec Layout.pf.encoder (holding (request 0x8 0 0 clusterFields)) = .next t ∧
        t.out.word = some (request 0xC 0x27EAD123).a :=
  ⟨by decide, rfl, rfl, by decide, by decide, _, rfl, by decide⟩
/-- V-C1: phi = -64, the least value that comes back. -/
theorem witness_PfV1V2RoundTrip_least_phi :
    (holding (request 0x8 0 0 { noFields with phi := -64 })).inFlight =
        request 0x8 0 0 { noFields with phi := -64 } :: [] ∧
      (holding (request 0xC 0x2000000)).inFlight = request 0xC 0x2000000 :: [] ∧
      -64 ≤ (-64#64).toInt ∧ (-64#64).toInt ≤ 63 ∧
      ∃ t : State, exec Layout.pf.encoder (holding (request 0x8 0 0 { noFields with phi := -64 })) = .next t ∧
        t.out.word = some (request 0xC 0x2000000).a :=
  ⟨rfl, rfl, by decide, by decide, _, rfl, by decide⟩
/-- V-C1: phi = 63, the greatest value that comes back, with every other field at its maximum. -/
theorem witness_PfV1V2RoundTrip_greatest_phi :
    let f : FieldPorts := { noFields with pt := 0xFFF, eta := 127, phi := 63, hoe := 15 }
    (holding (request 0x8 0 0 f)).inFlight = request 0x8 0 0 f :: [] ∧
      (holding (request 0xC 0x3DFFFFFF)).inFlight = request 0xC 0x3DFFFFFF :: [] ∧
      -64 ≤ f.phi.toInt ∧ f.phi.toInt ≤ 63 ∧
      ∃ t : State, exec Layout.pf.encoder (holding (request 0x8 0 0 f)) = .next t ∧
        t.out.word = some (request 0xC 0x3DFFFFFF).a :=
  ⟨rfl, rfl, by decide, by decide, _, rfl, by decide⟩
/-- V-C1: phi = 64, the first value that comes back cut to its width, as -64. -/
theorem witness_PfV1V2RoundTrip_truncated_phi :
    let f : FieldPorts := { noFields with pt := 0x1FFF, eta := -1, phi := 64, hoe := 16 }
    (holding (request 0x8 0 0 f)).inFlight = request 0x8 0 0 f :: [] ∧
      (holding (request 0xC 0x207FFFF)).inFlight = request 0xC 0x207FFFF :: [] ∧ ¬f.phi.toInt ≤ 63 ∧
      ∃ t : State, exec Layout.pf.encoder (holding (request 0x8 0 0 f)) = .next t ∧
        t.out.word = some (request 0xC 0x207FFFF).a :=
  ⟨rfl, rfl, by decide, _, rfl, by decide⟩
/-- V-L1, in GCTWord-v1. -/
theorem witness_PfV1V2RoundTrip_v1 :
    Layout.v1 ≠ .v3 ∧ Layout.v1 ≠ .pf ∧
      (holding (request 0x9 0 0 gctClusterFields)).inFlight = request 0x9 0 0 gctClusterFields :: [] ∧
      (holding (request 0xD 0x00058C3DA7EAD123)).inFlight = request 0xD 0x00058C3DA7EAD123 :: [] ∧
      ∃ t : State, exec Layout.v1.encoder (holding (request 0x9 0 0 gctClusterFields)) = .next t ∧
        t.out.word = some (request 0xD 0x00058C3DA7EAD123).a :=
  ⟨by decide, by decide, rfl, rfl, _, rfl, by decide⟩
/-- V-L1, in GCTWord-v2: the phi field 125 is odd, so that eta = 45 comes back as 173. -/
theorem witness_PfV1V2RoundTrip_v2 :
    Layout.v2 ≠ .v3 ∧ Layout.v2 ≠ .pf ∧
      (holding (request 0xA 0 0 gctClusterFields)).inFlight = request 0xA 0 0 gctClusterFields :: [] ∧
      (holding (request 0xE 0x00058C3DA7EAD123)).inFlight = request 0xE 0x00058C3DA7EAD123 :: [] ∧
      gctClusterFields.phi.toNat % 2 = 1 ∧
      ∃ t : State, exec Layout.v2.encoder (holding (request 0xA 0 0 gctClusterFields)) = .next t ∧
        t.out.word = some (request 0xE 0x00058C3DA7EAD123).a :=
  ⟨by decide, by decide, rfl, rfl, by decide, _, rfl, by decide⟩
/-- V-C3: eta = -127 and phi = -63. -/
theorem witness_V3RoundTrip :
    (holding (request 0xB 0 0 { noFields with eta := -127, phi := -63 })).inFlight =
        request 0xB 0 0 { noFields with eta := -127, phi := -63 } :: [] ∧
      (holding (request 0xF 0x3F7F000)).inFlight = request 0xF 0x3F7F000 :: [] ∧
      -127 ≤ (-127#64).toInt ∧ -63 ≤ (-63#64).toInt ∧
      ∃ t : State, exec .encV3 (holding (request 0xB 0 0 { noFields with eta := -127, phi := -63 })) = .next t ∧
        t.out.word = some (request 0xF 0x3F7F000).a :=
  ⟨rfl, rfl, by decide, by decide, _, rfl, by decide⟩
/-- V-C3: eta = 127 and phi = 63, the greatest values that come back. -/
theorem witness_V3RoundTrip_greatest :
    (holding (request 0xB 0 0 { noFields with eta := 127, phi := 63 })).inFlight =
        request 0xB 0 0 { noFields with eta := 127, phi := 63 } :: [] ∧
      (holding (request 0xF 0x7FFF000)).inFlight = request 0xF 0x7FFF000 :: [] ∧
      (127#64).toInt ≤ 127 ∧ (63#64).toInt ≤ 63 ∧
      ∃ t : State, exec .encV3 (holding (request 0xB 0 0 { noFields with eta := 127, phi := 63 })) = .next t ∧
        t.out.word = some (request 0xF 0x7FFF000).a :=
  ⟨rfl, rfl, by decide, by decide, _, rfl, by decide⟩
/-- V-C3: eta = 200 and phi = -100, which come back as 72 and -36. -/
theorem witness_V3RoundTrip_truncated :
    (holding (request 0xB 0 0 { noFields with eta := 200, phi := -100 })).inFlight =
        request 0xB 0 0 { noFields with eta := 200, phi := -100 } :: [] ∧
      (holding (request 0xF 0x24C8000)).inFlight = request 0xF 0x24C8000 :: [] ∧
      ¬(200#64).toInt ≤ 127 ∧ ¬-63 ≤ (-100#64).toInt ∧
      ∃ t : State, exec .encV3 (holding (request 0xB 0 0 { noFields with eta := 200, phi := -100 })) = .next t ∧
        t.out.word = some (request 0xF 0x24C8000).a :=
  ⟨rfl, rfl, by decide, by decide, _, rfl, by decide⟩
/-- V-C3: eta = -128 and phi = 64, the first values that do not come back: each is read as 0. -/
theorem witness_V3RoundTrip_first_truncated :
    (holding (request 0xB 0 0 { noFields with eta := -128, phi := 64 })).inFlight =
        request 0xB 0 0 { noFields with eta := -128, phi := 64 } :: [] ∧
      (holding (request 0xF 0x4000000)).inFlight = request 0xF 0x4000000 :: [] ∧
      ¬-127 ≤ (-128#64).toInt ∧ ¬(64#64).toInt ≤ 63 ∧
      ∃ t : State, exec .encV3 (holding (request 0xB 0 0 { noFields with eta := -128, phi := 64 })) = .next t ∧
        t.out.word = some (request 0xF 0x4000000).a :=
  ⟨rfl, rfl, by decide, by decide, _, rfl, by decide⟩

/-- A tie: 1.5 units lies midway between 1 and 2 and rounds to the even 2 (V-H1: 0x00000003 with h = 0). -/
theorem witness_RoundingIsNearestEven :
    0 < 2 ∧ rne32 false 3 2 = .finite false 2 ∧ Representable 1 ∧ 1 ≠ 2 ∧
      ((2 * 2 : Int) - 3).natAbs = ((1 * 2 : Int) - 3).natAbs :=
  ⟨by decide, by decide +kernel, ⟨by decide +kernel, 1, 0, by decide, by decide⟩, by decide, by decide⟩
/-- The threshold itself, and one unit below it. -/
theorem witness_RoundingOverflowsToInfinity :
    0 < 1 ∧ rne32 true ((2 ^ 25 - 1) * 2 ^ 252) 1 = .inf true ∧
      rne32 true ((2 ^ 25 - 1) * 2 ^ 252 - 1) 1 = .finite true ((2 ^ 24 - 1) * 2 ^ 253) := by decide +kernel
theorem witness_FloatPatternsRoundTrip : ¬isNanPattern 0x7F7FFFFF ∧ ¬isNanPattern 0xFF800000 ∧ isNanPattern 0x7F800001 := by
  refine ⟨fun h => ?_, fun h => ?_, ?_, ?_⟩
  · exact absurd h.1 (by decide)
  · exact absurd h.2 (by decide)
  · decide
  · decide

/-- A total of each kind: the product below 2^128 by the least step, at 2^128, an infinity and a NaN (V-H1). -/
theorem witness_HeFracResult :
    (holding (request 0x18 0x7F7FFFFF)).inFlight = request 0x18 0x7F7FFFFF :: [] ∧
      cmdOp (request 0x18 0x7F7FFFFF).cmd = 0x18 ∧
      Binary32.ofBits 0x7F7FFFFF = .finite false ((2 ^ 24 - 1) * 2 ^ 253) ∧
      (2 ^ 24 - 1) * 2 ^ 253 * 2 ^ 0 < overflowUnits ∧
      Binary32.ofBits 0x7F000000 = .finite false (2 ^ 276) ∧ ¬2 ^ 276 * 2 ^ 1 < overflowUnits ∧
      Binary32.ofBits 0xFF800000 = .inf true ∧ Binary32.ofBits 0x7FC00000 = .nan := ⟨rfl, by decide +kernel⟩
/-- The same totals, with isEmBigger 1 and 0. -/
theorem witness_HeSplitResult :
    (holding (request 0x19 0x7F000000 2)).inFlight = request 0x19 0x7F000000 2 :: [] ∧
      cmdOp (request 0x19 0x7F000000 2).cmd = 0x19 ∧ (request 0x19 0x7F000000 2).b.getLsbD 0 = false ∧
      (request 0x19 0x7F000000 3).b.getLsbD 0 = true ∧ ((request 0x19 0x7F000000 2).b.extractLsb' 1 3).toNat = 1 :=
  ⟨rfl, by decide⟩
theorem witness_FractionGrowsWithTheCode :
    (holding (request 0x18 1 0)).inFlight = request 0x18 1 0 :: [] ∧
      (holding (request 0x18 1 7)).inFlight = request 0x18 1 7 :: [] ∧
      (∃ m, Binary32.ofBits ((request 0x18 1 0).a.extractLsb' 0 32) = .finite false m) ∧
      (request 0x18 1 7).a.extractLsb' 0 32 = (request 0x18 1 0).a.extractLsb' 0 32 ∧
      (request 0x18 1 0).b.extractLsb' 0 3 ≤ (request 0x18 1 7).b.extractLsb' 0 3 :=
  ⟨rfl, rfl, ⟨1, by decide⟩, by decide⟩
/-- The total +infinity (V-H1). -/
theorem witness_FractionGrowsWithTheCode_infinity :
    (holding (request 0x18 0x7F800000 3)).inFlight = request 0x18 0x7F800000 3 :: [] ∧
      (holding (request 0x18 0x7F800000 4)).inFlight = request 0x18 0x7F800000 4 :: [] ∧
      Binary32.ofBits ((request 0x18 0x7F800000 3).a.extractLsb' 0 32) = .inf false ∧
      (request 0x18 0x7F800000 4).a.extractLsb' 0 32 = (request 0x18 0x7F800000 3).a.extractLsb' 0 32 ∧
      (request 0x18 0x7F800000 3).b.extractLsb' 0 3 ≤ (request 0x18 0x7F800000 4).b.extractLsb' 0 3 :=
  ⟨rfl, rfl, by decide⟩
theorem witness_FractionHalvesAndIsAtMostTheTotal :
    (holding (request 0x18 3 0)).inFlight = request 0x18 3 0 :: [] ∧
      Binary32.ofBits ((request 0x18 3 0).a.extractLsb' 0 32) = .finite false 3 ∧
      (request 0x18 3 0).b.extractLsb' 0 3 = 0 ∧
      3 * 2 ^ ((request 0x18 3 0).b.extractLsb' 0 3).toNat < overflowUnits := ⟨rfl, by decide +kernel⟩
theorem witness_EmuEmPorts :
    (holding (request 0x1A 0x2C52A020)).inFlight = request 0x1A 0x2C52A020 :: [] ∧
      cmdOp (request 0x1A 0x2C52A020).cmd = 0x1A := ⟨rfl, by decide⟩
theorem witness_EmuHadPorts :
    (holding (request 0x1B 0x2C52A020)).inFlight = request 0x1B 0x2C52A020 :: [] ∧
      cmdOp (request 0x1B 0x2C52A020).cmd = 0x1B := ⟨rfl, by decide⟩

theorem witness_EveryOperationAnswers : (holding (request 0x14)).inFlight = request 0x14 :: [] := rfl
/-- Two blocks with other histories (another draw index, other requests behind) and the same oldest request. -/
theorem witness_ResponseDependsOnTheRequestAlone :
    (holding (request 0x18 0x7FC00000)).inFlight = request 0x18 0x7FC00000 :: [] ∧
      { inFlight := [request 0x18 0x7FC00000, request 0x8], out := illegalResponse, draws := 9 : State }.inFlight =
        request 0x18 0x7FC00000 :: [request 0x8] := ⟨rfl, rfl⟩
theorem witness_ResponsesComeInRequestOrder :
    let s : State := { inFlight := [request 0x14, request 0x8], out := {}, draws := 0 }
    2 ≤ s.inFlight.length ∧ 2 = 1 + 1 ∧ s.inFlight[1]? = some (request 0x8) := ⟨by decide, rfl, rfl⟩
theorem witness_PresentedRequestsWaitTheirTurn : (holding (request 0x14)).inFlight ≠ [] := by simp [holding]
theorem witness_StepKeepsPortsOk :
    { holding (request 0x8) with out := illegalResponse }.PortsOk ∧
      ∃ t : State, step { holding (request 0x8) with out := illegalResponse } = .next t :=
  ⟨⟨.inr (.inl rfl), by simp [Response.signedPortsInRange, inSignedRange], by
    simp [Response.clusterFloatsAreNumbers, holdsNumber]⟩, _, rfl⟩

end Sys2Proof.Tests
end

section
/-! SUPPORT and PROOF. The integers on `out.ival` (spec/00_scope.md R9): the 65-bit port is wide enough for each of them. -/

namespace Sys2Proof.Machine

/-- A signed value of at most 65 bits stands on a 65-bit port untruncated. -/
theorem exists_signedPort_toInt {v : Int} (hlo : -2 ^ 64 ≤ v) (hhi : v < 2 ^ 64) :
    ∃ x : BitVec 65, signedPort 65 v = some x ∧ x.toInt = v :=
  ⟨_, rfl, BitVec.toInt_ofInt_eq_self (by decide) hlo hhi⟩

/-- The signed magnitude as a product with its sign (R96). -/
theorem smValue_eq_mul (sign : Bool) (mag : Nat) : smValue sign mag = (if sign then 1 else -1) * (mag : Int) := by
  cases sign <;> simp [smValue]

/-- A magnitude of at most 64 bits stands on a 65-bit port with either sign. -/
theorem exists_signedPort_smValue (sign : Bool) {mag : Nat} (h : mag < 2 ^ 64) :
    ∃ x : BitVec 65, signedPort 65 (smValue sign mag) = some x ∧ x.toInt = (if sign then 1 else -1) * (mag : Int) := by
  rw [← smValue_eq_mul]
  obtain ⟨hlo, hhi⟩ : -2 ^ 64 ≤ smValue sign mag ∧ smValue sign mag < 2 ^ 64 := by
    unfold smValue
    split <;> omega
  exact exists_signedPort_toInt hlo hhi

/-- A remainder by a width of at most 64 bits is a 64-bit magnitude. -/
theorem mod_two_pow_lt_word (n : Nat) {wid : Nat} (h : wid ≤ 64) : n % 2 ^ wid < 2 ^ 64 :=
  lt_of_lt_of_le (Nat.mod_lt _ (Nat.two_pow_pos _)) (Nat.pow_le_pow_right (by decide) h)

/-- The signed reading of a pattern has the pattern's residue. -/
theorem toInt_emod_two_pow {w : Nat} (x : BitVec w) : x.toInt % 2 ^ w = x.toNat := by
  rw [BitVec.toInt_eq_toNat_bmod]
  have hcast : ((2 ^ w : Nat) : Int) = 2 ^ w := by push_cast; rfl
  rw [← hcast, Int.bmod_emod, Int.emod_eq_of_lt (by omega) (by exact_mod_cast x.isLt)]

variable {off sbp : Position} {wid : WidthField}

/-- A legal FP.EXTU has a width of at most 64. -/
theorem wid_le_of_fpExtu (h : (Instr.fpExtu off wid).wellFormed = true) : wid.toNat ≤ 64 := by
  simp only [Instr.wellFormed, fieldInWord, decide_eq_true_eq] at h
  omega

/-- A legal FP.EXTSM has a width of at most 64. -/
theorem wid_le_of_fpExtsm (h : (Instr.fpExtsm off wid sbp).wellFormed = true) : wid.toNat ≤ 64 := by
  simp only [Instr.wellFormed, fieldInWord, Bool.and_eq_true, decide_eq_true_eq] at h
  omega

/-- A legal FP.EXTTC has a width of 1 to 64. -/
theorem wid_bounds_of_fpExttc (h : (Instr.fpExttc off wid).wellFormed = true) : 0 < wid.toNat ∧ wid.toNat ≤ 64 := by
  simp only [Instr.wellFormed, fieldInWord, widthPositive, Bool.and_eq_true, decide_eq_true_eq] at h
  omega

/-- A legal SM.DEC has a width of at most 64. -/
theorem wid_le_of_smDec (h : (Instr.smDec wid).wellFormed = true) : wid.toNat ≤ 64 := by
  simpa only [Instr.wellFormed, widthAtMostWord, decide_eq_true_eq] using h

variable {s : State} {q : Request} {rest : List Request}

/-- FP.EXTU writes the field's integer (R80). -/
theorem fpExtu_ival (hq : s.inFlight = q :: rest) (hwf : (Instr.fpExtu off wid).wellFormed = true) :
    ∃ t v, exec (.fpExtu off wid) s = .next t ∧ t.out.ival = some v ∧
      v.toInt = q.a.toNat / 2 ^ off.toNat % 2 ^ wid.toNat := by
  have hlt := mod_two_pow_lt_word (q.a.toNat / 2 ^ off.toNat) (wid_le_of_fpExtu hwf)
  obtain ⟨v, hport, hv⟩ := exists_signedPort_smValue true hlt
  refine ⟨_, v, exec_fpExtu hq off wid, ?_, by simpa using hv⟩
  simpa [hwf, wordA, extractUnsigned_eq_div_mod, smValue] using hport

/-- FP.EXTSM writes the field's integer under its sign (R81). -/
theorem fpExtsm_ival (hq : s.inFlight = q :: rest) (hwf : (Instr.fpExtsm off wid sbp).wellFormed = true) :
    ∃ t v, exec (.fpExtsm off wid sbp) s = .next t ∧ t.out.ival = some v ∧
      v.toInt = (if q.a.getLsbD sbp.toNat then 1 else -1) *
        ((q.a.toNat / 2 ^ off.toNat % 2 ^ wid.toNat : Nat) : Int) := by
  have hlt := mod_two_pow_lt_word (q.a.toNat / 2 ^ off.toNat) (wid_le_of_fpExtsm hwf)
  obtain ⟨v, hport, hv⟩ := exists_signedPort_smValue (q.a.getLsbD sbp.toNat) hlt
  refine ⟨_, v, exec_fpExtsm hq off wid sbp, ?_, hv⟩
  simpa [hwf, wordA, extractSignMagnitude, extractUnsigned_eq_div_mod] using hport

/-- FP.EXTTC writes the field's representative in the signed range of its width (R82). -/
theorem fpExttc_ival (hq : s.inFlight = q :: rest) (hwf : (Instr.fpExttc off wid).wellFormed = true) :
    ∃ t v, exec (.fpExttc off wid) s = .next t ∧ t.out.ival = some v ∧
      v.toInt % 2 ^ wid.toNat = q.a.toNat / 2 ^ off.toNat % 2 ^ wid.toNat ∧
      -(2 ^ (wid.toNat - 1)) ≤ v.toInt ∧ v.toInt ≤ 2 ^ (wid.toNat - 1) - 1 := by
  obtain ⟨hpos, hle⟩ := wid_bounds_of_fpExttc hwf
  let x := q.a.extractLsb' off.toNat wid.toNat
  have hlo : -2 ^ (wid.toNat - 1) ≤ x.toInt := BitVec.le_toInt x
  have hhi : x.toInt < 2 ^ (wid.toNat - 1) := BitVec.toInt_lt
  have hpow : (2 : Int) ^ (wid.toNat - 1) ≤ 2 ^ 64 := pow_le_pow_right₀ (by decide) (by omega)
  obtain ⟨v, hport, hv⟩ := exists_signedPort_toInt (v := x.toInt) (by omega) (by omega)
  refine ⟨_, v, exec_fpExttc hq off wid, ?_, ?_, by omega, by omega⟩
  · rw [answered_out, if_pos hwf, wordA, extractTwosComplementLike_eq q.a off.toNat hpos]
    exact hport
  · rw [hv, toInt_emod_two_pow, ← extractUnsigned_eq, extractUnsigned_eq_div_mod]
    push_cast
    rfl

/-- SM.DEC writes the signed magnitude (R96). -/
theorem smDec_ival (hq : s.inFlight = q :: rest) (hwf : (Instr.smDec wid).wellFormed = true) :
    ∃ t v, exec (.smDec wid) s = .next t ∧ t.out.ival = some v ∧
      v.toInt = (if q.b.getLsbD 0 then 1 else -1) * ((q.a.toNat % 2 ^ wid.toNat : Nat) : Int) := by
  have hlt := mod_two_pow_lt_word q.a.toNat (wid_le_of_smDec hwf)
  obtain ⟨v, hport, hv⟩ := exists_signedPort_smValue (q.b.getLsbD 0) hlt
  refine ⟨_, v, exec_smDec hq wid, ?_, hv⟩
  simpa [hwf, wordA, signB, packUnsigned] using hport

/-- Settles O22, one operation at a time. -/
theorem ivalHoldsTheMathematicalInteger : Obligations.IvalHoldsTheMathematicalInteger := by
  intro s q rest off wid sbp hq
  exact ⟨fpExtu_ival hq, fpExtsm_ival hq, fpExttc_ival hq, smDec_ival hq⟩

end Sys2Proof.Machine
end

section
/-! SUPPORT and PROOF. Reading and writing binary32 patterns (spec/00_scope.md R10, spec/93_implementation_defined.md I7). -/

namespace Sys2Proof.Machine

/-- A pattern is laid out from its three fields. -/
theorem floatPattern_fields (p : FloatBits) :
    floatPattern (p.getLsbD 31) (p.extractLsb' 23 8).toNat (p.extractLsb' 0 23).toNat = p := by
  apply BitVec.eq_of_getLsbD_eq
  intro k hk
  change BitVec.getLsbD (BitVec.ofBool _ ++ BitVec.ofNat 8 _ ++ BitVec.ofNat 23 _) k = _
  simp only [BitVec.getLsbD_append, BitVec.ofNat_toNat, BitVec.setWidth_eq, BitVec.getLsbD_extractLsb']
  by_cases h23 : k < 23
  · simp [h23]
  by_cases h31 : k < 31
  · simp [h23, show k - 23 < 8 by omega, show 23 + (k - 23) = k by omega]
  · obtain rfl : k = 31 := by omega
    simp

/-- A magnitude with a significand of exactly 24 bits is written as its exponent and fraction fields. -/
theorem bits32_normal (draw : Nat) (neg : Bool) {f : Nat} (hf : f < 2 ^ 23) (e : Nat) :
    bits32 draw (.finite neg ((2 ^ 23 + f) * 2 ^ e)) = floatPattern neg (e + 1) f := by
  have hpos := Nat.two_pow_pos e
  have hge : 2 ^ 23 * 2 ^ e ≤ (2 ^ 23 + f) * 2 ^ e := Nat.mul_le_mul_right _ (by omega)
  have hlt : (2 ^ 23 + f) * 2 ^ e < 2 ^ 24 * 2 ^ e := Nat.mul_lt_mul_of_pos_right (by omega) hpos
  have hlog : ((2 ^ 23 + f) * 2 ^ e).log2 = 23 + e :=
    (Nat.log2_eq_iff (by positivity)).mpr ⟨by rwa [Nat.pow_add], by rwa [Nat.add_right_comm, Nat.pow_add]⟩
  have hnormal : ¬(2 ^ 23 + f) * 2 ^ e < 2 ^ 23 :=
    Nat.not_lt.mpr (le_trans (Nat.le_mul_of_pos_right _ hpos) hge)
  simp only [bits32, hnormal, if_false, hlog, Nat.add_sub_cancel_left, Nat.mul_div_cancel _ hpos]

/-- The NaN patterns are those read as NaN. -/
theorem isNanPattern_iff (p : FloatBits) : isNanPattern p ↔ Binary32.ofBits p = .nan := by
  have hexp : p.extractLsb' 23 8 = 255 ↔ (p.extractLsb' 23 8).toNat = 255 := BitVec.toNat_inj.symm
  have hfrac : p.extractLsb' 0 23 = 0 ↔ (p.extractLsb' 0 23).toNat = 0 := BitVec.toNat_inj.symm
  simp only [isNanPattern, Binary32.ofBits, hexp, ne_eq, hfrac]
  generalize (p.extractLsb' 23 8).toNat = e
  generalize (p.extractLsb' 0 23).toNat = f
  split_ifs <;> simp [*]

/-- Writing the value that a pattern reads as gives the pattern, where it is no NaN. -/
theorem bits32_ofBits (draw : Nat) {p : FloatBits} (h : Binary32.ofBits p ≠ .nan) : bits32 draw (.ofBits p) = p := by
  have hp := floatPattern_fields p
  have hf := (p.extractLsb' 0 23).isLt
  unfold Binary32.ofBits at h ⊢
  simp only at h ⊢
  generalize (p.extractLsb' 23 8).toNat = e at *
  generalize (p.extractLsb' 0 23).toNat = f at *
  split_ifs at h ⊢ with he255 hf0 he0
  · subst he255 hf0
    exact hp
  · exact absurd rfl h
  · subst he0
    simpa only [bits32, hf, if_true] using hp
  · rw [bits32_normal _ _ hf, Nat.sub_add_cancel (Nat.one_le_iff_ne_zero.mpr he0)]
    exact hp

/-- Every drawn pattern is a NaN pattern. -/
theorem isNanPattern_nanPattern (draw : Nat) : isNanPattern (nanPattern draw) := by
  have hlt := (Config.nanFractionLessOne draw).isLt
  refine ⟨exponent_floatPattern _ _ _, ?_⟩
  rw [nanPattern, fraction_floatPattern, ne_eq, ← BitVec.toNat_inj, BitVec.toNat_ofNat, Nat.mod_eq_of_lt (by omega)]
  simp

/-- Settles O40: a pattern is its three fields, and each kind of value is written back into them. -/
theorem floatPatternsRoundTrip : Obligations.FloatPatternsRoundTrip := by
  intro p draw
  exact ⟨fun h => bits32_ofBits draw (mt (isNanPattern_iff p).mpr h), isNanPattern_iff p, isNanPattern_nanPattern draw⟩

end Sys2Proof.Machine
end

section
/-! SUPPORT. Rounding to 24 significant bits (spec/00_scope.md R10): the significand and the power of two that `roundUnits`
chooses, how near they are to the exact magnitude, and where they reach the overflow bound. -/

namespace Sys2Proof.Machine

/-- The spacing is a power of two that leaves 24 bits of the magnitude, and no fewer unless it is one unit. -/
theorem exists_spacing (q : Nat) :
    ∃ j, spacing q = 2 ^ j ∧ q < 2 ^ 24 * 2 ^ j ∧ (j = 0 ∨ 2 ^ 23 * 2 ^ j ≤ q) := by
  unfold spacing
  split_ifs with h
  · exact ⟨0, rfl, by omega, .inl rfl⟩
  · have hq : q ≠ 0 := by omega
    have hlog : 24 ≤ q.log2 := (Nat.le_log2 hq).mpr (by omega)
    refine ⟨q.log2 - 23, rfl, ?_, .inr ?_⟩
    · rw [← Nat.pow_add, show 24 + (q.log2 - 23) = q.log2 + 1 by omega]
      exact Nat.lt_log2_self
    · rw [← Nat.pow_add, show 23 + (q.log2 - 23) = q.log2 by omega]
      exact Nat.log2_self_le hq

/-- What `roundUnits` does: it divides by a power of two times the divisor, one that leaves 24 bits before the point, and no
fewer unless the power is 1. -/
theorem exists_roundUnits (num : Nat) {den : Nat} (hd : 0 < den) :
    ∃ j, roundUnits num den = divNearestEven num (den * 2 ^ j) * 2 ^ j ∧
      num < 2 ^ 24 * (den * 2 ^ j) ∧ (j = 0 ∨ 2 ^ 23 * (den * 2 ^ j) ≤ num) := by
  obtain ⟨j, hspacing, hlt, hge⟩ := exists_spacing (num / den)
  refine ⟨j, by simp only [roundUnits, hspacing], ?_, hge.imp_right fun h => ?_⟩
  · rw [Nat.mul_left_comm, Nat.mul_comm den]
    exact (Nat.div_lt_iff_lt_mul hd).mp hlt
  · rw [Nat.mul_left_comm, Nat.mul_comm den]
    exact (Nat.le_div_iff_mul_le hd).mp h

section divNearestEven

variable {den : Nat} (hd : 0 < den) {num k : Nat}
include hd

/-- A quotient of at most `k` is rounded to at most `k`. -/
theorem divNearestEven_le (h : num ≤ k * den) : divNearestEven num den ≤ k := by
  simpa only [divNearestEven_mul hd] using divNearestEven_mono hd h

/-- A quotient of at least `k` is rounded to at least `k`. -/
theorem le_divNearestEven (h : k * den ≤ num) : k ≤ divNearestEven num den := by
  simpa only [divNearestEven_mul hd] using divNearestEven_mono hd h

/-- A quotient midway between two natural numbers is rounded to the even one. -/
theorem divNearestEven_even_of_tie
    (h : 2 * num = 2 * (divNearestEven num den * den) + den ∨ 2 * (divNearestEven num den * den) = 2 * num + den) :
    divNearestEven num den % 2 = 0 := by
  have hnum := Nat.div_add_mod' num den
  have hr := Nat.mod_lt num hd
  have hnext : (num / den + 1) * den = num / den * den + den := Nat.succ_mul _ _
  unfold divNearestEven at h ⊢
  simp only at h ⊢
  split_ifs at h ⊢ <;> omega

/-- A quotient is rounded to an even `k` or more exactly from `k - 1/2` up. -/
theorem le_divNearestEven_iff_of_even (hk : k % 2 = 0) :
    k ≤ divNearestEven num den ↔ 2 * (k * den) ≤ 2 * num + den := by
  obtain ⟨hlo, hhi⟩ := divNearestEven_near hd num
  rw [Nat.add_mul, Nat.one_mul, Nat.mul_assoc] at hlo
  rw [Nat.mul_assoc] at hhi
  constructor
  · intro h
    have := Nat.mul_le_mul_right den h
    omega
  · intro h
    by_contra hlt
    have hnext : (divNearestEven num den + 1) * den ≤ k * den := Nat.mul_le_mul_right den (by omega)
    rw [Nat.succ_mul] at hnext
    have heven := divNearestEven_even_of_tie hd (num := num) (.inl (by omega))
    have hnext2 : (divNearestEven num den + 2) * den ≤ k * den := Nat.mul_le_mul_right den (by omega)
    rw [Nat.add_mul] at hnext2
    omega

/-- No multiple of the divisor is nearer than the rounded quotient's; where another is as near, the quotient is even. -/
theorem divNearestEven_nearest (num k : Nat) :
    (((divNearestEven num den * den : Nat) : Int) - num).natAbs ≤ (((k * den : Nat) : Int) - num).natAbs ∧
      (k ≠ divNearestEven num den →
        (((divNearestEven num den * den : Nat) : Int) - num).natAbs = (((k * den : Nat) : Int) - num).natAbs →
          divNearestEven num den % 2 = 0) := by
  obtain ⟨hlo, hhi⟩ := divNearestEven_near hd num
  rw [Nat.add_mul, Nat.one_mul, Nat.mul_assoc] at hlo
  rw [Nat.mul_assoc] at hhi
  have htie := divNearestEven_even_of_tie hd (num := num)
  rcases Nat.lt_trichotomy k (divNearestEven num den) with hlt | rfl | hgt
  · have hstep := Nat.mul_le_mul_right den (Nat.succ_le_of_lt hlt)
    rw [Nat.succ_mul] at hstep
    exact ⟨by omega, fun _ h => htie (by omega)⟩
  · exact ⟨le_rfl, fun h => absurd rfl h⟩
  · have hstep := Nat.mul_le_mul_right den (Nat.succ_le_of_lt hgt)
    rw [Nat.succ_mul] at hstep
    exact ⟨by omega, fun _ h => htie (by omega)⟩

end divNearestEven

/-- A representable magnitude is a multiple of a given power of two, or too small for 24 bits above it. -/
theorem dvd_or_lt_of_representable {m : Nat} (h : Representable m) (j : Nat) : 2 ^ j ∣ m ∨ (j ≠ 0 ∧ m < 2 ^ 23 * 2 ^ j) := by
  obtain ⟨-, k, e, hk, rfl⟩ := h
  rcases Nat.lt_or_ge e j with hlt | hge
  · refine .inr ⟨by omega, ?_⟩
    calc k * 2 ^ e < 2 ^ 24 * 2 ^ e := Nat.mul_lt_mul_of_pos_right hk (Nat.two_pow_pos e)
      _ = 2 ^ 23 * 2 ^ (e + 1) := by rw [Nat.pow_succ]; ring
      _ ≤ 2 ^ 23 * 2 ^ j := Nat.mul_le_mul_left _ (Nat.pow_le_pow_right (by decide) hlt)
  · exact .inl (Dvd.dvd.mul_left (Nat.pow_dvd_pow 2 hge) k)

/-- A significand of at most 24 bits, or the next power of two, makes a representable magnitude. -/
theorem representable_mul_two_pow {c j : Nat} (hc : c ≤ 2 ^ 24) (hlt : c * 2 ^ j < overflowUnits) :
    Representable (c * 2 ^ j) := by
  rcases Nat.lt_or_eq_of_le hc with h | rfl
  · exact ⟨hlt, c, j, h, rfl⟩
  · exact ⟨hlt, 2 ^ 23, j + 1, by decide, by rw [Nat.pow_succ]; ring⟩

/-- A rounded magnitude below the overflow bound is representable. -/
theorem representable_roundUnits {num den : Nat} (hd : 0 < den) (h : roundUnits num den < overflowUnits) :
    Representable (roundUnits num den) := by
  obtain ⟨j, hround, hlt, -⟩ := exists_roundUnits num hd
  rw [hround] at h ⊢
  exact representable_mul_two_pow (divNearestEven_le (Nat.mul_pos hd (Nat.two_pow_pos j)) hlt.le) h

/-- No representable magnitude is nearer than the rounded one; where another is as near, the rounded significand is even. -/
theorem roundUnits_nearest (num : Nat) {den m : Nat} (hd : 0 < den) (hm : Representable m) :
    (((roundUnits num den * den : Nat) : Int) - num).natAbs ≤ (((m * den : Nat) : Int) - num).natAbs ∧
      (m ≠ roundUnits num den →
        (((roundUnits num den * den : Nat) : Int) - num).natAbs = (((m * den : Nat) : Int) - num).natAbs →
          ∃ c j, roundUnits num den = c * 2 ^ j ∧ c ≤ 2 ^ 24 ∧ c % 2 = 0) := by
  obtain ⟨j, hround, hlt, hge⟩ := exists_roundUnits num hd
  have hD : 0 < den * 2 ^ j := Nat.mul_pos hd (Nat.two_pow_pos j)
  have hscale : ∀ c, c * 2 ^ j * den = c * (den * 2 ^ j) := fun c => by ring
  rw [hround, hscale]
  rcases dvd_or_lt_of_representable hm j with ⟨k, rfl⟩ | ⟨hj, hsmall⟩
  · obtain ⟨hnear, htie⟩ := divNearestEven_nearest hD num k
    rw [Nat.mul_comm _ k, hscale]
    exact ⟨hnear, fun hne heq =>
      ⟨_, j, rfl, divNearestEven_le hD hlt.le, htie (fun h => hne (by rw [← h])) heq⟩⟩
  · -- The least 24-bit significand lies between `m` and the exact magnitude, so `m` is strictly farther.
    have hleast := hge.resolve_left hj
    have hbelow : m * den < 2 ^ 23 * (den * 2 ^ j) := by
      rw [← hscale]
      exact Nat.mul_lt_mul_of_pos_right hsmall hd
    obtain ⟨hnear, -⟩ := divNearestEven_nearest hD num (2 ^ 23)
    exact ⟨by omega, fun _ heq => by omega⟩

/-- The last bit of a laid-out pattern is the fraction's. -/
theorem lastBit_floatPattern (neg : Bool) (exponent fraction : Nat) :
    (floatPattern neg exponent fraction).getLsbD 0 = decide (fraction % 2 = 1) := by
  have h := congrArg (fun x => BitVec.getLsbD x 0) (fraction_floatPattern neg exponent fraction)
  simpa only [BitVec.getLsbD_extractLsb', BitVec.getLsbD_ofNat, Nat.testBit_zero, Nat.zero_lt_succ, decide_true,
    Bool.true_and] using h

/-- An even multiple of a power of two, of at most 24 bits, keeps an even significand when it is normalised. -/
theorem significand_even {c : Nat} (hc : c ≤ 2 ^ 24) (heven : c % 2 = 0) (j : Nat) :
    c * 2 ^ j / 2 ^ ((c * 2 ^ j).log2 - 23) % 2 = 0 := by
  rcases Nat.lt_or_eq_of_le hc with hlt | rfl
  · have hexp : (c * 2 ^ j).log2 - 23 ≤ j := by
      rcases Nat.eq_zero_or_pos c with rfl | hpos
      · simp
      · have hbound : c * 2 ^ j < 2 ^ (24 + j) := by
          rw [Nat.pow_add]
          exact Nat.mul_lt_mul_of_pos_right hlt (Nat.two_pow_pos j)
        have := (Nat.log2_lt (by positivity)).mpr hbound
        omega
    rw [Nat.mul_div_assoc _ (Nat.pow_dvd_pow 2 hexp), Nat.mul_mod, heven, Nat.zero_mul, Nat.zero_mod]
  · rw [← Nat.pow_add, Nat.log2_two_pow, Nat.pow_div (by omega) (by decide), show 24 + j - (24 + j - 23) = 23 by omega]

/-- A magnitude with an even significand is written with a last bit of 0. -/
theorem lastBit_bits32 (draw : Nat) (neg : Bool) {c : Nat} (hc : c ≤ 2 ^ 24) (heven : c % 2 = 0) (j : Nat) :
    (bits32 draw (.finite neg (c * 2 ^ j))).getLsbD 0 = false := by
  have hm : c * 2 ^ j % 2 = 0 := by rw [Nat.mul_mod, heven, Nat.zero_mul, Nat.zero_mod]
  have hs := significand_even hc heven j
  simp only [bits32]
  split_ifs <;> rw [lastBit_floatPattern, decide_eq_false_iff_not] <;> omega

/-- A power of two is at most another, twice it, or at least four times it. -/
theorem two_pow_cases (j a : Nat) : 2 ^ j ≤ 2 ^ a ∨ 2 ^ j = 2 * 2 ^ a ∨ (j ≠ 0 ∧ 4 * 2 ^ a ≤ 2 ^ j) := by
  rcases Nat.lt_trichotomy j (a + 1) with h | rfl | h
  · exact .inl (Nat.pow_le_pow_right (by decide) (by omega))
  · exact .inr (.inl Nat.pow_succ')
  · refine .inr (.inr ⟨by omega, ?_⟩)
    calc 4 * 2 ^ a = 2 ^ (a + 2) := by rw [Nat.pow_add, Nat.mul_comm]
      _ ≤ 2 ^ j := Nat.pow_le_pow_right (by decide) h

/-- A rounded magnitude reaches `2^(a + 25)` exactly from half a last place below it up: the last place there is `2^(a + 1)`,
and the power of two itself is even. -/
theorem two_pow_le_roundUnits_iff (num a : Nat) {den : Nat} (hd : 0 < den) :
    2 ^ 25 * 2 ^ a ≤ roundUnits num den ↔ (2 ^ 25 - 1) * 2 ^ a * den ≤ num := by
  obtain ⟨j, hround, hlt, hge⟩ := exists_roundUnits num hd
  have hpos := Nat.two_pow_pos a
  have hD : 0 < den * 2 ^ j := Nat.mul_pos hd (Nat.two_pow_pos j)
  have hthreshold : (2 ^ 25 - 1) * 2 ^ a * den = (2 ^ 25 - 1) * (den * 2 ^ a) := by ring
  rw [hround, hthreshold]
  rcases two_pow_cases j a with hsmall | htwice | ⟨hj, hlarge⟩
  · have hm : divNearestEven num (den * 2 ^ j) * 2 ^ j ≤ 2 ^ 24 * 2 ^ a :=
      Nat.mul_le_mul (divNearestEven_le hD hlt.le) hsmall
    have hden := Nat.mul_le_mul_left den hsmall
    constructor <;> intro <;> omega
  · have hiff := le_divNearestEven_iff_of_even hD (num := num) (k := 2 ^ 24) (by decide)
    rw [htwice, Nat.mul_left_comm den] at hiff ⊢
    rw [show 2 ^ 25 * 2 ^ a = 2 ^ 24 * (2 * 2 ^ a) by ring, Nat.mul_le_mul_right_iff (by omega), hiff]
    omega
  · have hleast := hge.resolve_left hj
    have hm : 2 ^ 23 * (4 * 2 ^ a) ≤ divNearestEven num (den * 2 ^ j) * 2 ^ j :=
      Nat.mul_le_mul (le_divNearestEven hD hleast) hlarge
    have hden : den * (4 * 2 ^ a) ≤ den * 2 ^ j := Nat.mul_le_mul_left den hlarge
    rw [Nat.mul_left_comm] at hden
    constructor <;> intro <;> omega

/-- The result of `rne32` is the rounded magnitude under the sign given, below the overflow bound. -/
theorem rne32_eq_finite {neg neg' : Bool} {num den m : Nat} :
    rne32 neg num den = .finite neg' m ↔ roundUnits num den < overflowUnits ∧ neg' = neg ∧ m = roundUnits num den := by
  rcases Nat.lt_or_ge (roundUnits num den) overflowUnits with h | h
  · simp [rne32_finite h, h, eq_comm]
  · simp [rne32_inf h, h]

/-- The result of `rne32` is an infinity of the sign given, from the overflow bound up. -/
theorem rne32_eq_inf {neg neg' : Bool} {num den : Nat} :
    rne32 neg num den = .inf neg' ↔ overflowUnits ≤ roundUnits num den ∧ neg' = neg := by
  rcases Nat.lt_or_ge (roundUnits num den) overflowUnits with h | h
  · simp [rne32_finite h, h]
  · simp [rne32_inf h, h, eq_comm]

end Sys2Proof.Machine
end

section
/-! PROOF. Rounding is to the nearest representable value, ties to even, and overflows to infinity (spec/00_scope.md R10). -/

namespace Sys2Proof.Machine

/-- Settles O38: a representable magnitude is a multiple of the last place chosen, or below every 24-bit multiple of it. -/
theorem roundingIsNearestEven : Obligations.RoundingIsNearestEven := by
  intro neg num den hd neg' m hrne
  obtain ⟨hfinite, rfl, rfl⟩ := rne32_eq_finite.mp hrne
  refine ⟨rfl, representable_roundUnits hd hfinite, fun m' hm' => ?_⟩
  obtain ⟨hnear, htie⟩ := roundUnits_nearest num hd hm'
  push_cast at hnear htie
  refine ⟨hnear, fun hne heq draw => ?_⟩
  obtain ⟨c, j, hround, hc, heven⟩ := htie hne heq
  rw [hround]
  exact lastBit_bits32 draw neg' hc heven j

/-- Settles O39, from where a rounded magnitude reaches 2^277 units. -/
theorem roundingOverflowsToInfinity : Obligations.RoundingOverflowsToInfinity := by
  intro neg num den hd
  refine ⟨?_, fun b hb => (rne32_eq_inf.mp hb).2, rne32_ne_nan neg num den⟩
  have hbound : overflowUnits = 2 ^ 25 * 2 ^ 252 := by rw [overflowUnits_eq, ← Nat.pow_add]
  rw [← two_pow_le_roundUnits_iff num 252 hd, ← hbound]
  simp only [rne32_eq_inf, exists_and_left, exists_eq, and_true]

end Sys2Proof.Machine
end

section
/-! SUPPORT. Every operation at once (spec/10_state.md R21, R23, R24): the response each one gives where its fields are
well-formed, the ports that hold a value in it, and the step in terms of it. -/

namespace Sys2Proof.Machine

/-- The response of an operation whose fields are well-formed, to a request, as the response of index `draw`. -/
def operationResponse (i : Instr) (q : Request) (draw : Nat) : Response :=
  match i with
  | .fpExtu off wid =>
    { illegal := some false, ival := signedPort 65 (extractUnsigned (wordA q) off.toNat wid.toNat) }
  | .fpExtsm off wid sbp =>
    { illegal := some false
      ival := signedPort 65 (extractSignMagnitude (wordA q) off.toNat sbp.toNat wid.toNat) }
  | .fpExttc off wid =>
    { illegal := some false, ival := signedPort 65 (extractTwosComplementLike (wordA q) off.toNat wid.toNat) }
  | .fpPacku off wid =>
    { illegal := some false, word := some (place (packUnsigned (wordA q) wid.toNat) off.toNat) }
  | .smEnc wid =>
    { illegal := some false
      sign := some (packSignMagnitude (signedA q) wid.toNat).1
      mag := unsignedPort 64 (packSignMagnitude (signedA q) wid.toNat).2 }
  | .smDec wid =>
    { illegal := some false, ival := signedPort 65 (smValue (signB q) (packUnsigned (wordA q) wid.toNat)) }
  | .encPf => { illegal := some false, word := some (encodePf q.f) }
  | .encV1 => { illegal := some false, word := some (encodeV1 q.f) }
  | .encV2 => { illegal := some false, word := some (encodeV1 q.f), region := some q.f.region }
  | .encV3 => { illegal := some false, word := some (encodeV3 q.f) }
  | .decPf => { illegal := some false, d := decodePf (wordA q) draw }
  | .decV1 => { illegal := some false, d := decodeV1 (wordA q) draw }
  | .decV2 => { illegal := some false, d := decodeV2 (wordA q) q.f.region draw }
  | .decV3 => { illegal := some false, d := decodeV3 (wordA q) draw }
  | .chkPf => nullBitsResponse .pf q
  | .chkV1 => nullBitsResponse .v1 q
  | .chkV2 => nullBitsResponse .v2 q
  | .chkV3 => nullBitsResponse .v3 q
  | .zero => { illegal := some false, word := some 0 }
  | .heFrac => { illegal := some false, fval := floatPort draw (fracPart (floatA q) (hoeCodeB q)) }
  | .heSplit => { illegal := some false, fval := floatPort draw (emSplit (floatA q) (hoeFieldB q)) }
  | .emuEm => { illegal := some false, e := emuCommon (wordA q) draw }
  | .emuHad => { illegal := some false, e := emuHad (wordA q) draw }

/-- Every meaning is the legality test on its fields and then its response; an operation without a constraint always
passes the test. -/
theorem exec_eq_answerLegal (i : Instr) (s : State) : exec i s = answerLegal i.wellFormed s (operationResponse i) := by
  cases i <;> rfl

/-- Every operation, on a pending request. -/
theorem exec_pending {s : State} {q : Request} {rest : List Request} (h : s.inFlight = q :: rest) (i : Instr) :
    exec i s = .next (s.answered rest (if i.wellFormed then operationResponse i q s.draws else illegalResponse)) := by
  rw [exec_eq_answerLegal, answerLegal_pending h]

/-- Every operation, with no request in flight. -/
theorem exec_idle {s : State} (h : s.inFlight = []) (i : Instr) : exec i s = .next s := by
  rw [exec_eq_answerLegal, answerLegal_idle h]

/-- Every operation clears `out.illegal`. -/
@[simp] theorem operationResponse_illegal (i : Instr) (q : Request) (draw : Nat) :
    (operationResponse i q draw).illegal = some false := by
  cases i <;> rfl

/-- The ports that hold a value in an operation's response are its row set of R23: the table, operation by operation and
port by port. -/
theorem read_operationResponse_isSome (i : Instr) (q : Request) (draw : Nat) (p : OutPort) :
    ((operationResponse i q draw).read p).isSome = decide (p ∈ writtenPorts i) := by
  cases i <;> cases p <;> rfl

/-- A port outside the row set holds no value. -/
theorem read_operationResponse_of_notMem {i : Instr} {p : OutPort} (h : p ∉ writtenPorts i) (q : Request) (draw : Nat) :
    (operationResponse i q draw).read p = none := by
  rw [← Option.isNone_iff_eq_none, ← Option.isSome_eq_false_iff, read_operationResponse_isSome, decide_eq_false h]

/-- A port of the row set holds a value. -/
theorem exists_read_operationResponse_of_mem {i : Instr} {p : OutPort} (h : p ∈ writtenPorts i) (q : Request)
    (draw : Nat) : ∃ v, (operationResponse i q draw).read p = some v := by
  rw [← Option.isSome_iff_exists, read_operationResponse_isSome, decide_eq_true h]

/-- An IllegalCommand response holds a value on `out.illegal` alone. -/
theorem read_illegalResponse (p : OutPort) : illegalResponse.read p = if p = .illegal then some 1 else none := by
  cases p <;> rfl

section responseTo

variable {q : Request} {i : Instr}

/-- The response to a request is what the step of a state with that request alone leaves on the ports. -/
theorem responseTo_of_step {draw : Nat} {t : State} (h : step ⟨[q], {}, draw⟩ = .next t) : responseTo q draw = t.out := by
  simp only [responseTo, h]

/-- The response to a request whose command decodes. -/
theorem responseTo_of_decode (hd : decode q.cmd = .ok i) (draw : Nat) :
    responseTo q draw = if i.wellFormed then operationResponse i q draw else illegalResponse :=
  responseTo_of_step ((step_of_decode rfl hd).trans (exec_pending rfl i))

/-- The response to a request whose command does not decode. -/
theorem responseTo_of_decode_error {e : DecodeError} (hd : decode q.cmd = .error e) (draw : Nat) :
    responseTo q draw = illegalResponse :=
  responseTo_of_step (step_of_decode_error rfl hd)

/-- The command alone, and not the draw index, decides whether a request gets an operation's response or
IllegalCommand. -/
theorem responseTo_cases (q : Request) :
    (∃ i, ∀ draw, responseTo q draw = operationResponse i q draw) ∨ ∀ draw, responseTo q draw = illegalResponse := by
  cases hd : decode q.cmd with
  | error e => exact .inr (responseTo_of_decode_error hd)
  | ok i =>
    cases hwf : i.wellFormed with
    | true => exact .inl ⟨i, fun draw => by rw [responseTo_of_decode hd, if_pos hwf]⟩
    | false => exact .inr fun draw => by rw [responseTo_of_decode hd, hwf, if_neg Bool.false_ne_true]

/-- The step on a pending request: the response it would get alone, at the present draw index (R20, R21). -/
theorem step_pending {s : State} {rest : List Request} (h : s.inFlight = q :: rest) :
    step s = .next (s.answered rest (responseTo q s.draws)) := by
  cases hd : decode q.cmd with
  | error e => rw [step_of_decode_error h hd, responseTo_of_decode_error hd]
  | ok i => rw [step_of_decode h hd, exec_pending h, responseTo_of_decode hd]

end responseTo

/-- Everything a step can do. -/
theorem step_cases {s t : State} (h : step s = .next t) :
    (s.inFlight = [] ∧ t = s) ∨
      ∃ q rest, s.inFlight = q :: rest ∧ t = s.answered rest (responseTo q s.draws) := by
  cases hs : s.inFlight with
  | nil => rw [step_idle hs] at h; cases h; exact .inl ⟨rfl, rfl⟩
  | cons q rest => rw [step_pending hs] at h; cases h; exact .inr ⟨q, rest, rfl, rfl⟩

end Sys2Proof.Machine
end

section
/-! SUPPORT. The values that binary32 writes without loss (spec/00_scope.md R10): each rounded result is one, so each float
of a `d.*` or `e.*` port is (spec/93_implementation_defined.md I7). -/

namespace Sys2Proof.Machine

/-- An infinity, or a finite value that binary32 represents. -/
def Binary32.IsNumber : Binary32 → Prop
  | .nan => False
  | .inf _ => True
  | .finite _ units => Representable units

/-- A number is read back as it was written. -/
theorem ofBits_bits32_of_isNumber {x : Binary32} (h : x.IsNumber) (draw : Nat) : Binary32.ofBits (bits32 draw x) = x := by
  cases x with
  | nan => exact h.elim
  | inf neg => exact ofBits_bits32_inf draw neg
  | finite neg units => exact ofBits_bits32_finite draw neg h

/-- A number is no NaN. -/
theorem Binary32.IsNumber.ne_nan {x : Binary32} (h : x.IsNumber) : x ≠ .nan := by
  rintro rfl
  exact h

/-- A rounded quotient is a number. -/
theorem rne32_isNumber (neg : Bool) (num : Nat) {den : Nat} (hd : 0 < den) : (rne32 neg num den).IsNumber := by
  rcases Nat.lt_or_ge (roundUnits num den) overflowUnits with h | h
  · rw [rne32_finite h]; exact representable_roundUnits hd h
  · rw [rne32_inf h]; trivial

/-- A zero of either sign is a number. -/
theorem finite_zero_isNumber (neg : Bool) : (Binary32.finite neg 0).IsNumber :=
  ⟨Nat.mul_pos (Nat.two_pow_pos _) unitsOfOne_pos, 0, 0, by decide, rfl⟩

/-- A number divided by a finite value that is not zero is a number. -/
theorem divf_isNumber {x : Binary32} (hx : x ≠ .nan) (b : Bool) {n : Nat} (hn : n ≠ 0) :
    (divf x (.finite b n)).IsNumber := by
  cases x with
  | nan => exact absurd rfl hx
  | inf a => trivial
  | finite a m => rw [divf, if_neg hn]; exact rne32_isNumber _ _ (Nat.pos_of_ne_zero hn)

/-- A finite value less a number is a number. -/
theorem subf_finite_isNumber (a : Bool) (m : Nat) {y : Binary32} (hy : y ≠ .nan) : (subf (.finite a m) y).IsNumber := by
  cases y with
  | nan => exact absurd rfl hy
  | inf b => trivial
  | finite b n =>
    simp only [subf]
    split
    · exact finite_zero_isNumber _
    · exact rne32_isNumber _ _ Nat.one_pos

/-- The fraction of a finite total is a number. -/
theorem fracPart_finite_isNumber (a : Bool) (m h : Nat) : (fracPart (.finite a m) h).IsNumber :=
  divf_isNumber (mulf_finite_ne_nan _ _ _ _) _ (Nat.mul_ne_zero (Nat.succ_ne_zero _) unitsOfOne_pos.ne')

/-- The split of a finite total is a number. -/
theorem emSplit_finite_isNumber (a : Bool) (m : Nat) (hoe4 : BitVec 4) : (emSplit (.finite a m) hoe4).IsNumber := by
  unfold emSplit
  split
  · exact fracPart_finite_isNumber _ _ _
  · exact subf_finite_isNumber _ _ (fracPart_finite_ne_nan _ _ _)

/-- `pt * 0.5` is a number. -/
theorem ptFloat_isNumber (pt : Nat) : (ptFloat pt).IsNumber := rne32_isNumber _ _ unitsOfOne_pos

/-- The split of a word's `pt * 0.5` is a number. -/
theorem emSplit_ptFloat_isNumber (w : Word) (hoe4 : BitVec 4) :
    (emSplit (ptFloat (extractUnsigned w 0 12)) hoe4).IsNumber := by
  rw [ptFloat_eq (extractUnsigned_lt w 0 12)]
  exact emSplit_finite_isNumber _ _ _

/-- A number's pattern on a port does not depend on the draw. -/
theorem floatPort_draw_irrelevant {x : Binary32} (h : x.IsNumber) (d d' : Nat) : floatPort d x = floatPort d' x :=
  congrArg some (bits32_draw_irrelevant h.ne_nan d d')

/-- The pattern on a float port does not depend on the draw, or is a NaN pattern in each. -/
theorem floatPort_eq_or_nan (x : Binary32) (d d' : Nat) :
    floatPort d x = floatPort d' x ∨
      ∃ v v', floatPort d x = some v ∧ floatPort d' x = some v' ∧ isNanPattern v ∧ isNanPattern v' := by
  rcases eq_or_ne x .nan with rfl | hx
  · exact .inr ⟨_, _, rfl, rfl, isNanPattern_nanPattern d, isNanPattern_nanPattern d'⟩
  · exact .inl (congrArg some (bits32_draw_irrelevant hx d d'))

end Sys2Proof.Machine
end

section
/-! SUPPORT and PROOF. Reset, the idle step and the ports of one answer (spec/10_state.md R20, R21, R24, R31). -/

namespace Sys2Proof.Machine

/-- Settles O1, by the step's own case for a command that decodes. -/
theorem stepRunsTheDecodedOperation : Obligations.StepRunsTheDecodedOperation :=
  fun _ _ _ _ h hd => step_of_decode h hd

/-- Settles O10: the ports right after reset are those of the empty response. -/
theorem resetHoldsNoValue : Obligations.ResetHoldsNoValue :=
  ⟨reset_inFlight, fun p => readPort_eq_error.mpr (read_empty p)⟩

/-- Settles O12: the step and each operation are an answer, and there is no request to answer. -/
theorem idleStepChangesNothing : Obligations.IdleStepChangesNothing :=
  fun _ h => ⟨step_idle h, exec_idle h⟩

/-- Settles O9, from the ports that hold a value in an operation's response and in IllegalCommand's. -/
theorem unwrittenPortsFaultOnRead : Obligations.UnwrittenPortsFaultOnRead := by
  intro i s q rest hq
  refine ⟨_, exec_pending hq i, fun hwf => ?_, fun hwf => ?_⟩
  · rw [if_pos hwf]
    simp only [readPort_eq_error, readPort_eq_ok, answered_out]
    exact ⟨fun p hp => read_operationResponse_of_notMem hp q s.draws,
      fun p hp => exists_read_operationResponse_of_mem hp q s.draws,
      congrArg (Option.map bitPattern) (operationResponse_illegal i q s.draws)⟩
  · rw [hwf, if_neg Bool.false_ne_true]
    simp only [readPort_eq_error, readPort_eq_ok, answered_out]
    exact ⟨fun p hp => (read_illegalResponse p).trans (if_neg hp), read_illegalResponse .illegal⟩

/-- The draw index shows on no `d.*` port of DEC.PF. -/
theorem decodePf_draw_irrelevant (w : Word) (d d' : Nat) : decodePf w d = decodePf w d' := by
  simp only [decodePf, floatPort_draw_irrelevant (ptFloat_isNumber _) d d']

/-- The draw index shows on no port that DEC.V1 and DEC.V2 write alike. -/
theorem decodeGctCommon_draw_irrelevant (w : Word) (d d' : Nat) : decodeGctCommon w d = decodeGctCommon w d' := by
  simp only [decodeGctCommon, floatPort_draw_irrelevant (ptFloat_isNumber _) d d']

/-- The draw index shows on no `d.*` port of DEC.V3. -/
theorem decodeV3_draw_irrelevant (w : Word) (d d' : Nat) : decodeV3 w d = decodeV3 w d' := by
  simp only [decodeV3, floatPort_draw_irrelevant (ptFloat_isNumber _) d d']

/-- The draw index shows on no port that the emulators write alike. -/
theorem emuCommon_draw_irrelevant (w : Word) (d d' : Nat) : emuCommon w d = emuCommon w d' := by
  simp only [emuCommon, floatPort_draw_irrelevant (ptFloat_isNumber _) d d']

/-- The draw index shows on no `e.*` port of EMU.HAD. -/
theorem emuHad_draw_irrelevant (w : Word) (d d' : Nat) : emuHad w d = emuHad w d' := by
  simp only [emuHad, emuCommon_draw_irrelevant w d d', floatPort_draw_irrelevant (emSplit_ptFloat_isNumber w _) d d']

/-- The draw index of an operation's response shows on `out.fval` only. -/
theorem operationResponse_draw (i : Instr) (q : Request) (d d' : Nat) :
    operationResponse i q d = { operationResponse i q d' with fval := (operationResponse i q d).fval } := by
  cases i with
  | decPf => simp only [operationResponse, decodePf_draw_irrelevant _ d d']
  | decV1 => simp only [operationResponse, decodeV1, decodeGctCommon_draw_irrelevant _ d d']
  | decV2 => simp only [operationResponse, decodeV2, decodeGctCommon_draw_irrelevant _ d d']
  | decV3 => simp only [operationResponse, decodeV3_draw_irrelevant _ d d']
  | emuEm => simp only [operationResponse, emuCommon_draw_irrelevant _ d d']
  | emuHad => simp only [operationResponse, emuHad_draw_irrelevant _ d d']
  | _ => rfl

/-- A port other than `out.fval` holds what it held when `out.fval` changes. -/
theorem read_update_fval (r : Response) (x : Option FloatBits) {p : OutPort} (hp : p ≠ .fval) :
    ({ r with fval := x } : Response).read p = r.read p := by
  cases p with
  | fval => exact absurd rfl hp
  | _ => rfl

/-- Two responses of an operation to one request agree on `out.fval`, or hold a NaN pattern there. -/
theorem operationResponse_fval_eq_or_nan (i : Instr) (q : Request) (d d' : Nat) :
    (operationResponse i q d).fval = (operationResponse i q d').fval ∨
      ∃ v v', (operationResponse i q d).fval = some v ∧ (operationResponse i q d').fval = some v' ∧
        isNanPattern v ∧ isNanPattern v' := by
  cases i with
  | heFrac => exact floatPort_eq_or_nan _ d d'
  | heSplit => exact floatPort_eq_or_nan _ d d'
  | _ => exact .inl rfl

/-- Settles O48: the two responses are one operation's, or both IllegalCommand's, at two draw indices. -/
theorem responseDependsOnTheRequestAlone : Obligations.ResponseDependsOnTheRequestAlone := by
  intro s s' q rest rest' hq hq'
  refine ⟨_, _, step_pending hq, step_pending hq', ?_⟩
  simp only [answered_out]
  obtain ⟨i, hi⟩ | hillegal := responseTo_cases q
  · rw [hi, hi]
    refine ⟨fun p hp => ?_, operationResponse_fval_eq_or_nan i q _ _⟩
    rw [operationResponse_draw i q s.draws s'.draws, read_update_fval _ _ hp]
  · rw [hillegal, hillegal]
    exact ⟨fun _ _ => rfl, .inl rfl⟩

end Sys2Proof.Machine
end

section
/-! SUPPORT and PROOF. The invariant of the output ports (spec/10_state.md R23, R24, R31): every response is well shaped, its
signed ports are in range, and no NaN stands on its `d.*` and `e.*` ports; so each step keeps the invariant, and reset meets
it. -/

namespace Sys2Proof.Machine

/-- A port without a value is in range. -/
@[simp] theorem inSignedRange_none : inSignedRange none := by simp [inSignedRange]

/-- A value in range is written to a 16-bit port without truncation, so what stands there is in range. -/
theorem inSignedRange_signedPort {v : Int} (hlo : -508 ≤ v) (hhi : v ≤ 508) : inSignedRange (signedPort 16 v) := by
  rintro _ ⟨⟩
  rw [BitVec.toInt_ofInt_eq_self (by decide) (by omega) (by omega)]
  exact ⟨hlo, hhi⟩

/-- A field of at most 8 bits is in range. -/
theorem inSignedRange_unsigned (w : Word) (off : Nat) {wid : Nat} (h : 2 ^ wid ≤ 256) :
    inSignedRange (signedPort 16 (extractUnsigned w off wid)) := by
  have := extractUnsigned_lt w off wid
  exact inSignedRange_signedPort (by omega) (by omega)

/-- A two's-complement-like field of at most 8 bits is in range. -/
theorem inSignedRange_twosComplementLike (w : Word) (off : Nat) {wid : Nat} (h : 2 ^ wid ≤ 256) :
    inSignedRange (signedPort 16 (extractTwosComplementLike w off wid)) := by
  have hlt := extractUnsigned_lt w off wid
  have hcast : (2 : Int) ^ wid = ((2 ^ wid : Nat) : Int) := by push_cast; rfl
  apply inSignedRange_signedPort <;> unfold extractTwosComplementLike tc <;> split <;> omega

/-- A signed magnitude of at most 7 bits lies in [-127, 127]. -/
theorem extractSignMagnitude_bounds (w : Word) (off sbp : Nat) {wid : Nat} (h : 2 ^ wid ≤ 128) :
    -127 ≤ extractSignMagnitude w off sbp wid ∧ extractSignMagnitude w off sbp wid ≤ 127 := by
  have hlt := extractUnsigned_lt w off wid
  unfold extractSignMagnitude smValue
  split <;> omega

/-- A signed magnitude of at most 7 bits is in range. -/
theorem inSignedRange_signMagnitude (w : Word) (off sbp : Nat) {wid : Nat} (h : 2 ^ wid ≤ 128) :
    inSignedRange (signedPort 16 (extractSignMagnitude w off sbp wid)) := by
  obtain ⟨hlo, hhi⟩ := extractSignMagnitude_bounds w off sbp h
  exact inSignedRange_signedPort (by omega) (by omega)

/-- Four times a signed magnitude of at most 7 bits is in range, up to its ends. -/
theorem inSignedRange_four_mul_signMagnitude (w : Word) (off sbp : Nat) {wid : Nat} (h : 2 ^ wid ≤ 128) :
    inSignedRange (signedPort 16 (extractSignMagnitude w off sbp wid * 4)) := by
  obtain ⟨hlo, hhi⟩ := extractSignMagnitude_bounds w off sbp h
  exact inSignedRange_signedPort (by omega) (by omega)

/-- A response with no `d.*` and no `e.*` port has no signed 16-bit port out of range. -/
theorem signedPortsInRange_of_unset {r : Response} (hd : r.d = {}) (he : r.e = {}) : r.signedPortsInRange := by
  simp [Response.signedPortsInRange, hd, he]

/-- The signed 16-bit ports of every operation's response are in range. -/
theorem operationResponse_signedPortsInRange (i : Instr) (q : Request) (draw : Nat) :
    (operationResponse i q draw).signedPortsInRange := by
  cases i with
  | decPf =>
    exact ⟨inSignedRange_unsigned _ _ (by decide), inSignedRange_twosComplementLike _ _ (by decide),
      inSignedRange_none, inSignedRange_none, inSignedRange_none, inSignedRange_none⟩
  | decV1 =>
    exact ⟨inSignedRange_unsigned _ _ (by decide), inSignedRange_unsigned _ _ (by decide),
      inSignedRange_twosComplementLike _ _ (by decide), inSignedRange_twosComplementLike _ _ (by decide),
      inSignedRange_none, inSignedRange_none⟩
  | decV2 =>
    exact ⟨inSignedRange_unsigned _ _ (by decide), inSignedRange_unsigned _ _ (by decide),
      inSignedRange_twosComplementLike _ _ (by decide), inSignedRange_twosComplementLike _ _ (by decide),
      inSignedRange_none, inSignedRange_none⟩
  | decV3 =>
    exact ⟨inSignedRange_signMagnitude _ _ _ (by decide), inSignedRange_signMagnitude _ _ _ (by decide),
      inSignedRange_none, inSignedRange_none, inSignedRange_none, inSignedRange_none⟩
  | emuEm =>
    exact ⟨inSignedRange_none, inSignedRange_none, inSignedRange_none, inSignedRange_none,
      inSignedRange_four_mul_signMagnitude _ _ _ (by decide), inSignedRange_four_mul_signMagnitude _ _ _ (by decide)⟩
  | emuHad =>
    exact ⟨inSignedRange_none, inSignedRange_none, inSignedRange_none, inSignedRange_none,
      inSignedRange_four_mul_signMagnitude _ _ _ (by decide), inSignedRange_four_mul_signMagnitude _ _ _ (by decide)⟩
  | _ => exact signedPortsInRange_of_unset rfl rfl

/-- A port without a value holds no NaN. -/
@[simp] theorem holdsNumber_none : holdsNumber none := by simp [holdsNumber]

/-- A number is written as a pattern that is no NaN's. -/
theorem holdsNumber_floatPort {x : Binary32} (h : x.IsNumber) (draw : Nat) : holdsNumber (floatPort draw x) := by
  rintro _ ⟨⟩
  rw [isNanPattern_iff, ofBits_bits32_of_isNumber h]
  exact h.ne_nan

/-- A response with no `d.*` and no `e.*` port holds no NaN there. -/
theorem clusterFloatsAreNumbers_of_unset {r : Response} (hd : r.d = {}) (he : r.e = {}) : r.clusterFloatsAreNumbers := by
  simp [Response.clusterFloatsAreNumbers, hd, he]

/-- No NaN stands on a `d.*` or `e.*` port of an operation's response. -/
theorem operationResponse_clusterFloatsAreNumbers (i : Instr) (q : Request) (draw : Nat) :
    (operationResponse i q draw).clusterFloatsAreNumbers := by
  have hpt : holdsNumber (floatPort draw (ptFloat (extractUnsigned (wordA q) 0 12))) :=
    holdsNumber_floatPort (ptFloat_isNumber _) draw
  cases i with
  | decPf => exact ⟨hpt, holdsNumber_none, holdsNumber_none⟩
  | decV1 => exact ⟨hpt, holdsNumber_none, holdsNumber_none⟩
  | decV2 => exact ⟨hpt, holdsNumber_none, holdsNumber_none⟩
  | decV3 => exact ⟨hpt, holdsNumber_none, holdsNumber_none⟩
  | emuEm => exact ⟨holdsNumber_none, hpt, holdsNumber_none⟩
  | emuHad => exact ⟨holdsNumber_none, hpt, holdsNumber_floatPort (emSplit_ptFloat_isNumber _ _) draw⟩
  | _ => exact clusterFloatsAreNumbers_of_unset rfl rfl

/-- The ports of every operation's response are its row set of R23 and nothing else. -/
theorem operationResponse_wellShaped (i : Instr) (q : Request) (draw : Nat) : (operationResponse i q draw).wellShaped :=
  .inr (.inr ⟨i, operationResponse_illegal i q draw, fun p => by rw [read_operationResponse_isSome, decide_eq_true_iff]⟩)

/-- Every answer leaves the ports well shaped, whatever they held before. -/
theorem answered_portsOk (s : State) (q : Request) (rest : List Request) :
    (s.answered rest (responseTo q s.draws)).PortsOk := by
  unfold State.PortsOk
  rw [answered_out]
  obtain ⟨i, hi⟩ | hillegal := responseTo_cases q
  · rw [hi]
    exact ⟨operationResponse_wellShaped i q _, operationResponse_signedPortsInRange i q _,
      operationResponse_clusterFloatsAreNumbers i q _⟩
  · rw [hillegal]
    exact ⟨.inr (.inl rfl), signedPortsInRange_of_unset illegalResponse_d illegalResponse_e,
      clusterFloatsAreNumbers_of_unset illegalResponse_d illegalResponse_e⟩

/-- Settles O51: a step changes nothing, or answers a request. -/
theorem stepKeepsPortsOk : Obligations.StepKeepsPortsOk := by
  intro s t hs hstep
  obtain ⟨-, rfl⟩ | ⟨q, rest, -, rfl⟩ := step_cases hstep
  · exact hs
  · exact answered_portsOk s q rest

/-- Settles O52: after reset no port holds a value. -/
theorem resetPortsOk : Obligations.ResetPortsOk :=
  ⟨.inl reset_out, signedPortsInRange_of_unset rfl rfl, clusterFloatsAreNumbers_of_unset rfl rfl⟩

end Sys2Proof.Machine
end

section
/-! SUPPORT and PROOF. The block never stops, and every operation answers one request (spec/20_memory.md R44,
spec/60_exceptions.md R140 to R144). -/

namespace Sys2Proof.Machine

/-- The step has a next state whether or not a request is in flight. -/
theorem exists_step_eq_next (s : State) : ∃ t : State, step s = .next t := by
  cases hs : s.inFlight with
  | nil => exact ⟨s, step_idle hs⟩
  | cons q rest => exact ⟨_, step_pending hs⟩

/-- The response that `exec_pending` gives: `out.illegal` is 1 exactly where the operation's fields are ill-formed. -/
theorem illegal_of_exec_pending (i : Instr) (q : Request) (draw : Nat) :
    (if i.wellFormed then operationResponse i q draw else illegalResponse).illegal = some (!i.wellFormed) := by
  cases i.wellFormed with
  | true => exact operationResponse_illegal i q draw
  | false => exact illegalResponse_illegal

/-- Settles O47: the step is total, and each operation's answer to a pending request has the illegal bit of its fields. -/
theorem everyOperationAnswers : Obligations.EveryOperationAnswers :=
  ⟨exists_step_eq_next, fun i s q _ hq => ⟨_, exec_pending hq i, illegal_of_exec_pending i q s.draws⟩⟩

end Sys2Proof.Machine
end

section
/-! SUPPORT and PROOF. The command word (spec/30_encoding.md R50 to R55): encoding and decoding are inverse to each
other, and the legality test of R53 holds of the encodings of the well-formed operations and of nothing else. -/

namespace Sys2Proof

/-- Decoding the command word of an operation gives the operation back. -/
theorem decode_encode (i : Instr) : decode (encode i) = .ok i := by
  cases i with
  | fpExtsm off wid sbp => simp [encode, decode]
  | fpExtu off wid | fpExttc off wid | fpPacku off wid => simp [encode, decode, usesOffWid_eq_ok]
  | smEnc wid | smDec wid => simp [encode, decode, usesWid_eq_ok]
  | _ => simp [encode, decode, usesNone_eq_ok]

/-- Settles O3, by the four ways in which an operation uses the command fields. -/
theorem decodeInvertsEncode : Obligations.DecodeInvertsEncode := decode_encode

section accepted

variable {cmd : Command} {i : Instr} {op : Nat} (hrsv : cmdRsv cmd = 0) (hop : (cmdOp cmd).toNat = op)

include hrsv hop

/-- A command with RSV zero is laid out from its code's number and its three other fields. -/
theorem command_eq_commandWord_ofNat :
    cmd = commandWord (BitVec.ofNat 5 op) (cmdOff cmd) (cmdWid cmd) (cmdSbp cmd) := by
  have hcmd := command_eq_commandWord hrsv
  rwa [BitVec.eq_of_toNat_eq (x := cmdOp cmd) (y := BitVec.ofNat 5 op) (by simp [← hop])] at hcmd

/-- A command accepted as one with OFF and WID is the encoding of its operation. -/
theorem encode_of_usesOffWid {mk : Position → WidthField → Instr}
    (hmk : ∀ off wid, encode (mk off wid) = commandWord (BitVec.ofNat 5 op) off wid 0)
    (h : usesOffWid cmd mk = .ok i) : encode i = cmd := by
  obtain ⟨hsbp, rfl⟩ := usesOffWid_eq_ok.mp h
  have hcmd := command_eq_commandWord_ofNat hrsv hop
  rw [hsbp, ← hmk] at hcmd
  exact hcmd.symm

/-- A command accepted as one with WID is the encoding of its operation. -/
theorem encode_of_usesWid {mk : WidthField → Instr}
    (hmk : ∀ wid, encode (mk wid) = commandWord (BitVec.ofNat 5 op) 0 wid 0) (h : usesWid cmd mk = .ok i) :
    encode i = cmd := by
  obtain ⟨hoff, hsbp, rfl⟩ := usesWid_eq_ok.mp h
  have hcmd := command_eq_commandWord_ofNat hrsv hop
  rw [hoff, hsbp, ← hmk] at hcmd
  exact hcmd.symm

/-- A command accepted as one without fields is the encoding of its operation. -/
theorem encode_of_usesNone {j : Instr} (hj : encode j = commandWord (BitVec.ofNat 5 op) 0 0 0)
    (h : usesNone cmd j = .ok i) : encode i = cmd := by
  obtain ⟨hoff, hwid, hsbp, rfl⟩ := usesNone_eq_ok.mp h
  have hcmd := command_eq_commandWord_ofNat hrsv hop
  rw [hoff, hwid, hsbp, ← hj] at hcmd
  exact hcmd.symm

end accepted

/-- A command that decodes is the encoding of what it decodes to: the rows of the opcode table, by the fields they
use. -/
theorem encode_of_decode {cmd : Command} {i : Instr} (h : decode cmd = .ok i) : encode i = cmd := by
  unfold decode at h
  split at h
  · cases h
  next hrsv =>
    replace hrsv : cmdRsv cmd = 0 := not_not.mp hrsv
    split at h
    case h_1 hop | h_3 hop | h_4 hop => exact encode_of_usesOffWid hrsv hop (fun _ _ => rfl) h
    case h_2 hop =>
      cases h
      exact (command_eq_commandWord_ofNat hrsv hop).symm
    case h_5 hop | h_6 hop => exact encode_of_usesWid hrsv hop (fun _ => rfl) h
    case h_24 => cases h
    all_goals exact encode_of_usesNone hrsv ‹_› rfl h

/-- Settles O4, by the rows of the decoder. -/
theorem encodeInvertsDecode : Obligations.EncodeInvertsDecode := fun _ _ => encode_of_decode

/-- A command decodes to an operation exactly where it is the operation's encoding. -/
theorem decode_eq_ok_iff {cmd : Command} {i : Instr} : decode cmd = .ok i ↔ encode i = cmd :=
  ⟨encode_of_decode, fun h => h ▸ decode_encode i⟩

/-- The number of a laid-out command (R55). -/
theorem toNat_commandWord (op : BitVec 5) (off : Position) (wid : WidthField) (sbp : Position) :
    (commandWord op off wid sbp).toNat = op.toNat ||| off.toNat <<< 5 ||| wid.toNat <<< 11 ||| sbp.toNat <<< 18 := by
  change BitVec.toNat ((0 : BitVec 8) ++ sbp ++ wid ++ off ++ op) = _
  simp only [BitVec.toNat_append, Nat.shiftLeft_or_distrib, ← Nat.shiftLeft_add]
  rw [show BitVec.toNat (0 : BitVec 8) = 0 from rfl, Nat.zero_shiftLeft, Nat.zero_or]
  rw [Nat.or_comm _ op.toNat, Nat.or_comm _ (off.toNat <<< 5), Nat.or_comm (sbp.toNat <<< _), ← Nat.or_assoc,
    ← Nat.or_assoc]

/-- Settles O5: each encoding is a laid-out command, whose fields that are 0 add nothing to its number. -/
theorem encodingIsTheShiftedFields : Obligations.EncodingIsTheShiftedFields := by
  intro off wid sbp
  simp [encode, toNat_commandWord]

/-- On the command word of an operation, R53's legality test is condition (4) on the operation's fields. -/
theorem legal_encode (i : Instr) : legal (encode i) = i.wellFormed := by
  rw [Bool.eq_iff_iff]
  cases i with
  | fpExtsm off wid sbp => simp [encode, legal, Instr.wellFormed, fieldInWord, signOutsideMagnitude]
  | fpExttc off wid => simp [encode, legal, Instr.wellFormed, fieldInWord, widthPositive, and_comm]
  | fpExtu off wid | fpPacku off wid => simp [encode, legal, Instr.wellFormed, fieldInWord]
  | smEnc wid | smDec wid => simp [encode, legal, Instr.wellFormed, widthAtMostWord]
  | _ => simp [encode, legal, Instr.wellFormed]

/-- The operations that use no command field (R52). -/
def fieldFreeOperations : List Instr :=
  [.encPf, .encV1, .encV2, .encV3, .decPf, .decV1, .decV2, .decV3, .chkPf, .chkV1, .chkV2, .chkV3, .zero, .heFrac,
    .heSplit, .emuEm, .emuHad]

/-- Every code in R53's two ranges is that of an operation that uses no command field. -/
theorem exists_fieldFree_of_range :
    ∀ op : BitVec 5, (0x08 ≤ op.toNat ∧ op.toNat ≤ 0x14) ∨ (0x18 ≤ op.toNat ∧ op.toNat ≤ 0x1B) →
      ∃ i ∈ fieldFreeOperations, encode i = commandWord op 0 0 0 := by
  decide

/-- A command that R53's legality test accepts is the encoding of an operation: branch by branch of the test. -/
theorem exists_encode_of_legal {cmd : Command} (h : legal cmd = true) : ∃ i, encode i = cmd := by
  have hzero {n : Nat} {x : BitVec n} (hx : x.toNat = 0) : x = 0 := BitVec.eq_of_toNat_eq (by simpa using hx)
  unfold legal at h
  simp only at h
  have hrsv : cmdRsv cmd = 0 := by
    by_contra hrsv
    rw [if_pos hrsv] at h
    cases h
  have hcmd {op : Nat} := command_eq_commandWord_ofNat (op := op) hrsv
  rw [if_neg (not_not.mpr hrsv)] at h
  split_ifs at h with hoffwid hextsm hwid hnone
  · obtain ⟨hsbp, -, -⟩ := of_decide_eq_true h
    obtain hop | hop | hop := hoffwid <;> rw [hcmd hop, hzero hsbp]
    · exact ⟨.fpExtu _ _, rfl⟩
    · exact ⟨.fpExttc _ _, rfl⟩
    · exact ⟨.fpPacku _ _, rfl⟩
  · exact ⟨.fpExtsm _ _ _, (hcmd hextsm).symm⟩
  · obtain ⟨hoff, hsbp, -⟩ := of_decide_eq_true h
    obtain hop | hop := hwid <;> rw [hcmd hop, hzero hoff, hzero hsbp]
    · exact ⟨.smEnc _, rfl⟩
    · exact ⟨.smDec _, rfl⟩
  · obtain ⟨hoff, hwid, hsbp⟩ := of_decide_eq_true h
    rw [command_eq_commandWord hrsv, hzero hoff, hzero hwid, hzero hsbp]
    obtain ⟨i, -, hi⟩ := exists_fieldFree_of_range _ hnone
    exact ⟨i, hi⟩

/-- Settles O6: the accepted commands are encodings, and on those the test is condition (4). -/
theorem legalIffDecodesWellFormed : Obligations.LegalIffDecodesWellFormed := by
  intro cmd
  simp only [decode_eq_ok_iff]
  constructor
  · intro h
    obtain ⟨i, rfl⟩ := exists_encode_of_legal h
    exact ⟨i, rfl, legal_encode i ▸ h⟩
  · rintro ⟨i, rfl, hwf⟩
    rw [legal_encode, hwf]

/-- Settles O2: each of the words is the encoding of the operation it stands for. -/
theorem specCommandWordsDecode : Obligations.SpecCommandWordsDecode :=
  ⟨decode_encode (.fpExtsm 12 7 19), decode_encode (.fpPacku 19 7), decode_encode (.smEnc 7), decode_encode .encV3,
    decode_encode .decV2, decode_encode .chkV3, decode_encode .heSplit, decode_encode .emuHad⟩

end Sys2Proof
end

section
/-! SUPPORT and PROOF. The encoders and the FieldSpec tables (spec/30_encoding.md R60 to R67, spec/43_word_encoder.md
R100 to R104): an encoded word is the word of its layout's table, bit by bit. -/

namespace Sys2Proof.Machine

/-- The word that a FieldSpec table describes: each field's input, cut to its width, at its place (R60, R100). -/
def tableWord (fields : List FieldSpec) (f : FieldPorts) : Word :=
  fields.foldr (fun x w => place (fieldInput f x.name % 2 ^ x.width) x.offset ||| w) 0

/-- A field's input, cut and placed, bit by bit. -/
theorem getLsbD_place_field (x : FieldSpec) (n : Nat) {k : Nat} (hk : k < 64) :
    (place (n % 2 ^ x.width) x.offset).getLsbD k = (x.covers k && n.testBit (k - x.offset)) := by
  rw [getLsbD_place, Nat.testBit_mod_two_pow, FieldSpec.covers, decide_eq_true hk, Bool.true_and]
  by_cases hoff : x.offset ≤ k
  · simp [hoff, show k - x.offset < x.width ↔ k < x.offset + x.width by omega]
  · simp [hoff]

/-- The word of a FieldSpec table, bit by bit. -/
theorem getLsbD_tableWord (fields : List FieldSpec) (f : FieldPorts) {k : Nat} (hk : k < 64) :
    (tableWord fields f).getLsbD k =
      fields.any fun x => x.covers k && (fieldInput f x.name).testBit (k - x.offset) := by
  induction fields with
  | nil => simp [tableWord]
  | cons x fields ih =>
    rw [List.any_cons, ← ih, ← getLsbD_place_field x _ hk, ← BitVec.getLsbD_or]
    rfl

/-- The positive sign as a one-bit field's input. -/
theorem bitValue_decide_pos (v : Int) : bitValue (decide (0 < v)) = (if 0 < v then 1 else 0) % 2 ^ 1 := by
  by_cases h : 0 < v <;> simp [bitValue, h]

/-- ENC.PF's word is the table's. -/
theorem encodePf_eq_tableWord (f : FieldPorts) : encodePf f = tableWord Layout.pf.fields f := by
  simp [encodePf, tableWord, Layout.fields, fieldInput, packUnsigned, BitVec.or_assoc]

/-- ENC.V1's word, which is ENC.V2's too, is the table's. -/
theorem encodeV1_eq_tableWord (f : FieldPorts) : encodeV1 f = tableWord gctFields f := by
  simp [encodeV1, tableWord, gctFields, fieldInput, packUnsigned, BitVec.or_assoc]

/-- ENC.V3's word is the table's. -/
theorem encodeV3_eq_tableWord (f : FieldPorts) : encodeV3 f = tableWord Layout.v3.fields f := by
  simp only [encodeV3, packSignMagnitude, bitValue_decide_pos, trunc_natCast]
  simp [tableWord, Layout.fields, fieldInput, packUnsigned, signedEta, signedPhi, BitVec.or_assoc]

variable {s : State} {q : Request} {rest : List Request}

/-- Each layout's encode operation answers with the word of its table. -/
theorem exec_encoder_word (hq : s.inFlight = q :: rest) (l : Layout) :
    ∃ t : State, exec l.encoder s = .next t ∧ t.out.word = some (tableWord l.fields q.f) := by
  cases l with
  | pf => exact ⟨_, exec_encPf hq, congrArg some (encodePf_eq_tableWord q.f)⟩
  | v1 => exact ⟨_, exec_encV1 hq, congrArg some (encodeV1_eq_tableWord q.f)⟩
  | v2 => exact ⟨_, exec_encV2 hq, congrArg some (encodeV1_eq_tableWord q.f)⟩
  | v3 => exact ⟨_, exec_encV3 hq, congrArg some (encodeV3_eq_tableWord q.f)⟩

/-- The fields of a layout lie inside the word. -/
theorem fields_inside_word (l : Layout) : ∀ x ∈ l.fields, x.offset + x.width ≤ 64 := by
  cases l <;> decide

/-- The fields of a layout share no bit. -/
theorem fields_pairwise_disjoint (l : Layout) : l.fields.Pairwise fun x y => x.disjoint y = true := by
  cases l <;> decide

/-- Settles O26: the encoded word is its table's, and a table's word has the layout's bits. -/
theorem encodersFollowTheFieldTables : Obligations.EncodersFollowTheFieldTables := by
  intro l s q rest hq
  obtain ⟨t, ht, hw⟩ := exec_encoder_word hq l
  exact ⟨fields_inside_word l, fields_pairwise_disjoint l, t, _, ht, hw, fun _ => getLsbD_tableWord l.fields q.f⟩

/-- An extracted field depends on its own bits only. -/
theorem extractUnsigned_congr {w w' : Word} {off wid : Nat}
    (h : ∀ k, off ≤ k → k < off + wid → w'.getLsbD k = w.getLsbD k) :
    extractUnsigned w' off wid = extractUnsigned w off wid := by
  rw [extractUnsigned_eq, extractUnsigned_eq]
  congr 1
  apply BitVec.eq_of_getLsbD_eq
  intro k hk
  simp only [BitVec.getLsbD_extractLsb', h (off + k) (by omega) (by omega)]

/-- DEC.PF reads bits below 30 only. -/
theorem decodePf_congr {w w' : Word} (h : ∀ k, k < 30 → w'.getLsbD k = w.getLsbD k) (draw : Nat) :
    decodePf w' draw = decodePf w draw := by
  have hfield {off wid : Nat} (hle : off + wid ≤ 30) : extractUnsigned w' off wid = extractUnsigned w off wid :=
    extractUnsigned_congr fun k _ hk => h k (by omega)
  simp only [decodePf, extractTwosComplementLike, hfield, Nat.reduceAdd, Nat.reduceLeDiff]

/-- A null-bits check examines the bits from `n` up only. -/
theorem passesNullBitsCheck_congr {w w' : Word} {n : Nat} (h : ∀ k, n ≤ k → w'.getLsbD k = w.getLsbD k) :
    passesNullBitsCheck w' n = passesNullBitsCheck w n := by
  have hshift : w' >>> n = w >>> n := by
    apply BitVec.eq_of_getLsbD_eq
    intro k _
    simp only [BitVec.getLsbD_ushiftRight, h (n + k) (by omega)]
  rw [passesNullBitsCheck, hshift, passesNullBitsCheck]

/-- Flipping bit `n` of a word changes no other bit. -/
theorem getLsbD_flipBit (w : Word) {n k : Nat} (h : k ≠ n) : (w ^^^ 1 <<< n).getLsbD k = w.getLsbD k := by
  have hbit : ((1 <<< n : Nat) : Word).getLsbD k = false := by
    rw [BitVec.natCast_eq_ofNat, BitVec.getLsbD_ofNat, Nat.one_shiftLeft, Nat.testBit_two_pow_of_ne h.symm,
      Bool.and_false]
  rw [BitVec.getLsbD_xor, hbit, Bool.xor_false]

/-- Bit 30 lies in no field of PFCrystalWord. -/
theorem gap_uncovered : ¬∃ x ∈ Layout.pf.fields, x.covers 30 = true := by decide

/-- In a GCT layout every bit below unusedBitsStart lies in a field. -/
theorem gct_covered {l : Layout} (h : l ≠ .pf) : ∀ k, k < l.unusedBitsStart → ∃ x ∈ l.fields, x.covers k = true := by
  cases l with
  | pf => exact absurd rfl h
  | v1 | v2 | v3 => decide

/-- ENC.PF writes the gap bit as 0. -/
theorem encodePf_gap (f : FieldPorts) : (encodePf f).getLsbD 30 = false := by
  rw [encodePf_eq_tableWord, getLsbD_tableWord _ _ (by decide), List.any_eq_false]
  intro x hx hbit
  exact gap_uncovered ⟨x, hx, (Bool.and_eq_true_iff.mp hbit).1⟩

/-- Settles O35: bit 30 is in no field, and flipping it changes no bit that DEC.PF or CHK.PF reads. -/
theorem gapBitOfThePfWord : Obligations.GapBitOfThePfWord := by
  intro s q rest hq
  have hdec : decodePf (q.a ^^^ 1 <<< 30) s.draws = decodePf q.a s.draws :=
    decodePf_congr (fun k hk => getLsbD_flipBit q.a (by omega)) s.draws
  have hchk : passesNullBitsCheck (q.a ^^^ 1 <<< 30) 31 = passesNullBitsCheck q.a 31 :=
    passesNullBitsCheck_congr fun k hk => getLsbD_flipBit q.a (by omega)
  refine ⟨⟨_, _, exec_encPf hq, rfl, encodePf_gap q.f⟩, ⟨_, exec_decPf hq, ?_⟩, ⟨_, exec_chkPf hq, ?_⟩,
    gap_uncovered, by decide, fun l => gct_covered⟩
  · rw [exec_decPf rfl, wordA, hdec]
    rfl
  · rw [exec_chkPf rfl, nullBitsResponse, wordA, Layout.unusedBitsStart, hchk]
    rfl

end Sys2Proof.Machine
end

section
/-! SUPPORT and PROOF. The fixed-point field unpacker (spec/40_field_unpacker.md R80 to R82): which of its commands are
legal (spec/30_encoding.md R53), and the response of each legal one as a bit slice of `in.A`. -/

namespace Sys2Proof.Machine

section legality

variable {off sbp : Position} {wid : WidthField}

/-- Condition (4) of R53 for FP.EXTU. -/
theorem wellFormed_fpExtu_iff : (Instr.fpExtu off wid).wellFormed = true ↔ off.toNat + wid.toNat ≤ 64 :=
  decide_eq_true_iff

/-- Condition (4) of R53 for FP.EXTSM: the sign bit lies below the magnitude or above it. -/
theorem wellFormed_fpExtsm_iff :
    (Instr.fpExtsm off wid sbp).wellFormed = true ↔
      off.toNat + wid.toNat ≤ 64 ∧ (sbp.toNat < off.toNat ∨ off.toNat + wid.toNat ≤ sbp.toNat) := by
  simp only [Instr.wellFormed, fieldInWord, signOutsideMagnitude, Bool.and_eq_true, Bool.not_eq_true',
    Bool.and_eq_false_iff, decide_eq_true_eq, decide_eq_false_iff_not, Nat.not_le, Nat.not_lt]

/-- Condition (4) of R53 for FP.EXTTC. -/
theorem wellFormed_fpExttc_iff :
    (Instr.fpExttc off wid).wellFormed = true ↔ 1 ≤ wid.toNat ∧ off.toNat + wid.toNat ≤ 64 := by
  simp only [Instr.wellFormed, fieldInWord, widthPositive, Bool.and_eq_true, decide_eq_true_eq]

end legality

section commands

variable {s : State} {q : Request} {rest : List Request} {i : Instr}

/-- The step on a pending request whose command decodes, to `i`, exactly under a condition. -/
theorem step_of_decode_eq_ok_iff {c : Prop} [Decidable c] (hq : s.inFlight = q :: rest)
    (hdec : ∀ j, decode q.cmd = .ok j ↔ c ∧ i = j) :
    step s = if c then exec i s else .next (s.answered rest illegalResponse) := by
  split
  next hc => exact step_of_decode hq ((hdec i).mpr ⟨hc, rfl⟩)
  next hc =>
    cases hd : decode q.cmd with
    | ok j => exact absurd ((hdec j).mp hd).1 hc
    | error e => exact step_of_decode_error hq hd

/-- A command with RSV set decodes to nothing, whatever its code. -/
theorem decode_ne_ok_of_cmdRsv {cmd : Command} (h : cmdRsv cmd ≠ 0) (j : Instr) : decode cmd ≠ .ok j := by
  rw [decode, if_pos h]
  exact nofun

/-- The step on a pending request whose code's row of the decoder uses OFF and WID: RSV and SBP must be zero. -/
theorem step_of_usesOffWid {mk : Position → WidthField → Instr} (hq : s.inFlight = q :: rest)
    (hrow : cmdRsv q.cmd = 0 → decode q.cmd = usesOffWid q.cmd mk) :
    step s = if cmdSbp q.cmd = 0 ∧ cmdRsv q.cmd = 0 then exec (mk (cmdOff q.cmd) (cmdWid q.cmd)) s
      else .next (s.answered rest illegalResponse) := by
  refine step_of_decode_eq_ok_iff hq fun j => ?_
  by_cases hrsv : cmdRsv q.cmd = 0
  · simp only [hrow hrsv, usesOffWid_eq_ok, hrsv, and_true]
  · exact iff_of_false (decode_ne_ok_of_cmdRsv hrsv j) fun h => hrsv h.1.2

/-- A command with the code 0x01 decodes where RSV is zero, for it uses all three fields. -/
theorem decode_fpExtsm_iff {cmd : Command} (hop : cmdOp cmd = 0x01) (j : Instr) :
    decode cmd = .ok j ↔ cmdRsv cmd = 0 ∧ .fpExtsm (cmdOff cmd) (cmdWid cmd) (cmdSbp cmd) = j := by
  by_cases hrsv : cmdRsv cmd = 0
  · simp [decode, hop, hrsv]
  · exact iff_of_false (decode_ne_ok_of_cmdRsv hrsv j) fun h => hrsv h.1

end commands

section ports

variable (w : Word) (off sbp wid : Nat)

/-- FP.EXTU's port: the field, zero-extended (R80). -/
theorem signedPort_extractUnsigned :
    signedPort 65 (extractUnsigned w off wid) = some ((w.extractLsb' off wid).setWidth 65) := by
  rw [extractUnsigned_eq, signedPort_toNat]

/-- FP.EXTSM's port: the zero-extended field, negated where the sign bit is 0 (R81). -/
theorem signedPort_extractSignMagnitude :
    signedPort 65 (extractSignMagnitude w off sbp wid) =
      some (if w.getLsbD sbp then (w.extractLsb' off wid).setWidth 65 else -(w.extractLsb' off wid).setWidth 65) := by
  rw [extractSignMagnitude, extractUnsigned_eq, signedPort_smValue]

/-- FP.EXTTC's port: the field, sign-extended (R82). -/
theorem signedPort_extractTwosComplementLike {wid : Nat} (h : 0 < wid) :
    signedPort 65 (extractTwosComplementLike w off wid) = some ((w.extractLsb' off wid).signExtend 65) := by
  rw [extractTwosComplementLike_eq w off h, signedPort_toInt]

end ports

/-- Settles O13: the test on the fields and the port, then the decoder's row. -/
theorem fpExtuReadsTheField : Obligations.FpExtuReadsTheField := by
  intro s q rest hq
  refine ⟨fun off wid => ?_, fun hop => step_of_usesOffWid hq fun hrsv => by simp [decode, hop, hrsv]⟩
  rw [exec_fpExtu hq, signedPort_extractUnsigned, wordA]
  simp only [wellFormed_fpExtu_iff]

/-- Settles O14, as O13; the decoder's row uses SBP, so only RSV is tested. -/
theorem fpExtsmReadsSignAndMagnitude : Obligations.FpExtsmReadsSignAndMagnitude := by
  intro s q rest hq
  refine ⟨fun off wid sbp => ?_, fun hop => step_of_decode_eq_ok_iff hq (decode_fpExtsm_iff hop)⟩
  rw [exec_fpExtsm hq, signedPort_extractSignMagnitude, wordA]
  simp only [wellFormed_fpExtsm_iff]

/-- Settles O15; only a legal command has the positive width that a two's-complement reading needs. -/
theorem fpExttcReadsTwosComplement : Obligations.FpExttcReadsTwosComplement := by
  intro s q rest hq
  refine ⟨fun off wid => ?_, fun hop => step_of_usesOffWid hq fun hrsv => by simp [decode, hop, hrsv]⟩
  rw [exec_fpExttc hq, wordA]
  simp only [wellFormed_fpExttc_iff]
  split
  next hlegal =>
    obtain ⟨hpos, -⟩ := hlegal
    rw [signedPort_extractTwosComplementLike q.a off.toNat hpos]
  next => rfl

end Sys2Proof.Machine
end

section
/-! SUPPORT and PROOF. The fixed-point field packer (spec/41_field_packer.md R90, R91, R93): the word FP.PACKU writes as a
shift of the low bits of `in.A`, and the field that FP.EXTU and FP.EXTTC read back from it. -/

namespace Sys2Proof.Machine

section words

variable (v : Word) (off wid : Nat)

/-- FP.PACKU's word: the low bits of the value, shifted to the offset (R90). -/
theorem place_packUnsigned : place (packUnsigned v wid) off = (v.setWidth wid).setWidth 64 <<< off := by
  apply BitVec.eq_of_getLsbD_eq
  intro k hk
  have hrange : k - off < 64 := by omega
  rw [getLsbD_place_packUnsigned, BitVec.getLsbD_shiftLeft, BitVec.getLsbD_setWidth, BitVec.getLsbD_setWidth,
    decide_eq_true hrange, Bool.true_and]
  by_cases hoff : off ≤ k
  · simp [hoff, Nat.not_lt.mpr hoff]
  · simp [hoff, Nat.not_le.mp hoff]

/-- The field that a packed value occupies holds the value's low bits (R93). -/
theorem extractLsb'_place_packUnsigned {off wid : Nat} (h : off + wid ≤ 64) :
    (place (packUnsigned v wid) off).extractLsb' off wid = v.setWidth wid := by
  apply BitVec.eq_of_getLsbD_eq
  intro k hk
  have hword : off + k < 64 := by omega
  rw [BitVec.getLsbD_extractLsb', getLsbD_place_packUnsigned, BitVec.getLsbD_setWidth, Nat.add_sub_cancel_left]
  simp [hk, hword]

/-- A signed value in a narrower width's range is kept by truncation to that width (R91). -/
theorem toInt_setWidth_of_inRange {wid : Nat} (hpos : 1 ≤ wid) (hword : wid ≤ 64)
    (hlo : -(2 ^ (wid - 1)) ≤ v.toInt) (hhi : v.toInt ≤ 2 ^ (wid - 1) - 1) :
    (v.setWidth wid).toInt = v.toInt := by
  have hresidue : (v.setWidth wid).toInt = v.toInt.bmod (2 ^ wid) := by
    rw [BitVec.toInt_setWidth, BitVec.toInt_eq_toNat_bmod, Int.bmod_bmod_of_dvd (Nat.pow_dvd_pow 2 hword)]
  have htwice : (2 : Int) ^ wid = 2 * 2 ^ (wid - 1) := by rw [← pow_succ', Nat.sub_add_cancel hpos]
  rw [hresidue]
  apply Int.bmod_eq_of_le <;> push_cast <;> omega

end words

section requests

variable {s : State} {q : Request} {rest : List Request} {off : Position} {wid : WidthField}

/-- Condition (4) of R53 for FP.PACKU. -/
theorem wellFormed_fpPacku_iff : (Instr.fpPacku off wid).wellFormed = true ↔ off.toNat + wid.toNat ≤ 64 :=
  decide_eq_true_iff

/-- A legal FP.PACKU writes a word whose field holds the low bits of `in.A`. -/
theorem fpPacku_field (hq : s.inFlight = q :: rest) (hlegal : off.toNat + wid.toNat ≤ 64) :
    ∃ t : State, exec (.fpPacku off wid) s = .next t ∧
      ∀ w, t.out.word = some w → w.extractLsb' off.toNat wid.toNat = q.a.setWidth wid.toNat := by
  refine ⟨_, exec_fpPacku hq off wid, fun w hw => ?_⟩
  rw [answered_out, if_pos (wellFormed_fpPacku_iff.mpr hlegal)] at hw
  rw [← Option.some.inj hw, extractLsb'_place_packUnsigned _ hlegal, wordA]

end requests

/-- Settles O16: the test on the fields and the word as a shift, then the decoder's row. -/
theorem fpPackuPlacesTheLowBits : Obligations.FpPackuPlacesTheLowBits := by
  intro s q rest hq
  refine ⟨fun off wid => ?_, fun hop => step_of_usesOffWid hq fun hrsv => by simp [decode, hop, hrsv]⟩
  rw [exec_fpPacku hq, place_packUnsigned, wordA]
  simp only [wellFormed_fpPacku_iff]

/-- Settles O17: FP.EXTU zero-extends the field (O13), and the field holds the value's low bits. -/
theorem packThenExtractUnsigned : Obligations.PackThenExtractUnsigned := by
  intro off wid s s' q q' rest rest' hlegal hq hq'
  obtain ⟨t, hpack, hfield⟩ := fpPacku_field hq hlegal
  obtain ⟨hextract, -⟩ := fpExtuReadsTheField s' q' rest' hq'
  refine ⟨t, _, hpack, fun hword => ⟨hextract off wid, (q.a.setWidth wid.toNat).setWidth 65, ?_, ?_⟩⟩
  · rw [answered_out, if_pos hlegal, hfield _ hword]
  · rw [BitVec.toNat_setWidth_of_le (by omega), BitVec.toNat_setWidth]

/-- Settles O18: FP.EXTTC sign-extends the field (O15), and the field's signed reading is the value in range. -/
theorem packThenExtractSigned : Obligations.PackThenExtractSigned := by
  intro off wid s s' q q' rest rest' hpos hlegal hq hq' hlo hhi
  obtain ⟨t, hpack, hfield⟩ := fpPacku_field hq hlegal
  obtain ⟨hextract, -⟩ := fpExttcReadsTwosComplement s' q' rest' hq'
  refine ⟨t, _, hpack, fun hword => ⟨hextract off wid, (q.a.setWidth wid.toNat).signExtend 65, ?_, ?_⟩⟩
  · rw [answered_out, if_pos ⟨hpos, hlegal⟩, hfield _ hword]
  · rw [BitVec.toInt_signExtend_of_le (by omega), toInt_setWidth_of_inRange q.a hpos (by omega) hlo hhi]

end Sys2Proof.Machine
end

section
/-! SUPPORT and PROOF. The sign-magnitude converter (spec/42_sign_magnitude.md R95 to R97): the ports of SM.ENC and SM.DEC
in terms of the low bits of their operands, and the value that the two of them give back. -/

namespace Sys2Proof.Machine

/-- A packed sign-magnitude value as a comparison and a remainder (R95). -/
theorem packSignMagnitude_eq (v : Int) (wid : Nat) :
    packSignMagnitude v wid = (decide (0 < v), v.natAbs % 2 ^ wid) := by
  rw [packSignMagnitude, trunc_natCast]

/-- The sign bit of R95 puts 0 with the negative values, which changes no product: 0 is 0 under both signs (R96). -/
theorem signBit_mul_truncated_magnitude (v : Int) (wid : Nat) :
    (if 0 < v then 1 else -1) * ((v.natAbs % 2 ^ wid : Nat) : Int) = v.sign * (v.natAbs % 2 ^ wid : Nat) := by
  rcases Int.lt_trichotomy v 0 with hneg | rfl | hpos
  · rw [if_neg hneg.not_gt, Int.sign_eq_neg_one_of_neg hneg]
  · simp
  · rw [if_pos hpos, Int.sign_eq_one_of_pos hpos]

section responses

variable {s : State} {q : Request} {rest : List Request} {wid : WidthField}

/-- Condition (4) of R53 for SM.ENC. -/
theorem wellFormed_smEnc_iff : (Instr.smEnc wid).wellFormed = true ↔ wid.toNat ≤ 64 :=
  decide_eq_true_iff

/-- Condition (4) of R53 for SM.DEC. -/
theorem wellFormed_smDec_iff : (Instr.smDec wid).wellFormed = true ↔ wid.toNat ≤ 64 :=
  decide_eq_true_iff

/-- The step on a pending request whose code's row of the decoder uses WID: OFF, SBP and RSV must be zero. -/
theorem step_of_usesWid {mk : WidthField → Instr} (hq : s.inFlight = q :: rest)
    (hrow : cmdRsv q.cmd = 0 → decode q.cmd = usesWid q.cmd mk) :
    step s = if cmdOff q.cmd = 0 ∧ cmdSbp q.cmd = 0 ∧ cmdRsv q.cmd = 0 then exec (mk (cmdWid q.cmd)) s
      else .next (s.answered rest illegalResponse) := by
  refine step_of_decode_eq_ok_iff hq fun j => ?_
  by_cases hrsv : cmdRsv q.cmd = 0
  · simp only [hrow hrsv, usesWid_eq_ok, hrsv, and_true, and_assoc]
  · exact iff_of_false (decode_ne_ok_of_cmdRsv hrsv j) fun ⟨⟨_, _, hzero⟩, _⟩ => hrsv hzero

/-- A legal SM.ENC writes the sign and the truncated magnitude of `in.A` as a signed integer (R95); the magnitude fits
its port. -/
theorem smEnc_ports (hq : s.inFlight = q :: rest) (hlegal : wid.toNat ≤ 64) :
    ∃ t m, exec (.smEnc wid) s = .next t ∧ t.out.sign = some (decide (0 < q.a.toInt)) ∧ t.out.mag = some m ∧
      m.toNat = q.a.toInt.natAbs % 2 ^ wid.toNat := by
  have henc := exec_smEnc hq wid
  rw [if_pos (wellFormed_smEnc_iff.mpr hlegal), signedA, s64_eq_toInt, packSignMagnitude_eq] at henc
  exact ⟨_, _, henc, rfl, rfl, Nat.mod_eq_of_lt (mod_two_pow_lt_word _ hlegal)⟩

end responses

/-- Settles O19: the test on the width and the two ports, then the decoder's row. -/
theorem smEncSplitsSignAndMagnitude : Obligations.SmEncSplitsSignAndMagnitude := by
  intro s q rest hq
  refine ⟨fun wid => ?_, fun hop => step_of_usesWid hq fun hrsv => by simp [decode, hop, hrsv]⟩
  rw [exec_smEnc hq, signedA, s64_eq_toInt, packSignMagnitude_mag, unsignedPort_toNat, packSignMagnitude_eq]
  simp only [wellFormed_smEnc_iff]

/-- Settles O20, as O19. -/
theorem smDecJoinsSignAndMagnitude : Obligations.SmDecJoinsSignAndMagnitude := by
  intro s q rest hq
  refine ⟨fun wid => ?_, fun hop => step_of_usesWid hq fun hrsv => by simp [decode, hop, hrsv]⟩
  rw [exec_smDec hq, packUnsigned_eq, signedPort_smValue, wordA, signB]
  simp only [wellFormed_smDec_iff]

/-- Settles O21: the decoder's signed magnitude (O22), with the encoder's sign and magnitude as its operands. -/
theorem signMagnitudeRoundTrip : Obligations.SignMagnitudeRoundTrip := by
  intro wid s s' q q' rest rest' hlegal hq hq'
  obtain ⟨t, m, henc, hsign, hmag, hm⟩ := smEnc_ports hq hlegal
  obtain ⟨t', v, hdec, hival, hv⟩ := smDec_ival hq' (wellFormed_smDec_iff.mpr hlegal)
  refine ⟨t, t', henc, fun hmag' hsign' => ⟨hdec, v, hival, ?_⟩⟩
  have hmagnitude : m = q'.a := Option.some.inj (hmag.symm.trans hmag')
  have hbit : decide (0 < q.a.toInt) = q'.b.getLsbD 0 := Option.some.inj (hsign.symm.trans hsign')
  have hjoined : v.toInt = q.a.toInt.sign * (q.a.toInt.natAbs % 2 ^ wid.toNat : Nat) := by
    rw [hv, ← hmagnitude, ← hbit, hm, Nat.mod_mod, ← signBit_mul_truncated_magnitude]
    simp only [decide_eq_true_eq]
  exact ⟨fun hfits => by rw [hjoined, Nat.mod_eq_of_lt hfits, Int.sign_mul_natAbs], hjoined⟩

end Sys2Proof.Machine
end

section
/-! SUPPORT and PROOF. The cluster word encoder (spec/43_word_encoder.md R101 to R106): the commands that run an operation
without fields (spec/30_encoding.md R53), the encoded words as concatenations of their fields, and the word of ZERO. -/

namespace Sys2Proof.Machine

section commands

variable {s : State} {q : Request} {rest : List Request} {op : BitVec 5} {i : Instr}

/-- The step on a pending request whose code's row of the decoder uses no field: the one command that decodes is the
operation's encoding, the code with every other bit 0. -/
theorem runsOnlyOn_of_usesNone (hq : s.inFlight = q :: rest) (hencode : encode i = op.setWidth 32)
    (hrow : cmdOp q.cmd = op → cmdRsv q.cmd = 0 → decode q.cmd = usesNone q.cmd i) : s.runsOnlyOn q rest op i := by
  intro hop
  refine step_of_decode_eq_ok_iff hq fun j => ⟨fun hj => ?_, fun ⟨hcmd, hij⟩ => ?_⟩
  · have hrsv : cmdRsv q.cmd = 0 := by_contra fun hrsv => decode_ne_ok_of_cmdRsv hrsv j hj
    obtain ⟨-, -, -, rfl⟩ := usesNone_eq_ok.mp (hrow hop hrsv ▸ hj)
    exact ⟨(encode_of_decode hj).symm.trans hencode, rfl⟩
  · rw [decode_eq_ok_iff, ← hij, hencode, hcmd]

/-- A layout's check answers the null-bits check against its own unusedBitsStart. -/
theorem exec_checker (hq : s.inFlight = q :: rest) (l : Layout) :
    exec l.checker s = .next (s.answered rest (nullBitsResponse l q)) := by
  cases l with
  | pf => exact exec_chkPf hq
  | v1 => exact exec_chkV1 hq
  | v2 => exact exec_chkV2 hq
  | v3 => exact exec_chkV3 hq

end commands

section words

/-- A whole word placed at bit 0 is itself. -/
theorem place_toNat_zero (w : Word) : place w.toNat 0 = w := by
  simp [place]

/-- Placing no bit leaves every bit 0. -/
@[simp] theorem place_zero (off : Nat) : place 0 off = 0#64 := by
  simp [place]

/-- A concatenation placed at an offset is its low part at the offset and its high part above that. -/
theorem place_append {m n : Nat} (x : BitVec m) (y : BitVec n) (off : Nat) :
    place (x ++ y).toNat off = place y.toNat off ||| place x.toNat (off + n) := by
  apply BitVec.eq_of_getLsbD_eq
  intro k hk
  simp only [BitVec.getLsbD_or, getLsbD_place, BitVec.testBit_toNat, BitVec.getLsbD_append, decide_eq_true hk,
    Bool.true_and]
  by_cases hlow : k - off < n
  · simp [hlow, show ¬off + n ≤ k by omega]
  · by_cases hoff : off ≤ k
    · simp [hlow, hoff, show off + n ≤ k by omega, Nat.sub_sub, BitVec.getLsbD_of_ge y (k - off) (by omega)]
    · simp [hoff, show ¬off + n ≤ k by omega]

/-- A one-bit value as the number of a one-bit pattern. -/
theorem bitValue_eq_toNat (b : Bool) : bitValue b = (BitVec.ofBool b).toNat := by
  cases b <;> rfl

variable (f : FieldPorts)

/-- The PFCrystalWord as R62 draws it. -/
theorem encodePf_eq_append :
    encodePf f =
      (0 : BitVec 34) ++ f.hoe.setWidth 4 ++ f.phi.setWidth 7 ++ f.eta.setWidth 7 ++ f.pt.setWidth 12 := by
  refine Eq.trans ?_ (place_toNat_zero _)
  simp only [place_append, encodePf, packUnsigned_eq, BitVec.or_assoc]
  simp

/-- The GCTWord-v1 as R63 lays it out. -/
theorem encodeV1_eq_append :
    encodeV1 f =
      (0 : BitVec 12) ++ f.brems.setWidth 2 ++ f.shapeFlag.setWidth 2 ++ f.timing.setWidth 5 ++ f.fb.setWidth 6 ++
        f.isoFlag.setWidth 2 ++ f.iso.setWidth 3 ++ f.hoeFlag.setWidth 2 ++ f.hoe.setWidth 4 ++ f.phi.setWidth 7 ++
        f.eta.setWidth 7 ++ f.pt.setWidth 12 := by
  refine Eq.trans ?_ (place_toNat_zero _)
  simp only [place_append, encodeV1, packUnsigned_eq, BitVec.or_assoc]
  simp

/-- The GCTWord-v3 as R65 lays it out, with the angles as R104 packs them. -/
theorem encodeV3_eq_append :
    encodeV3 f =
      (0 : BitVec 11) ++ f.brems.setWidth 2 ++ f.shapeFlag.setWidth 2 ++ f.timing.setWidth 5 ++ f.fb.setWidth 6 ++
        f.isoFlag.setWidth 2 ++ f.iso.setWidth 3 ++ f.hoeFlag.setWidth 2 ++ f.hoe.setWidth 4 ++
        BitVec.ofBool (decide (0 < f.phi.toInt)) ++ (if f.phi.msb then -f.phi else f.phi).setWidth 6 ++
        BitVec.ofBool (decide (0 < f.eta.toInt)) ++ (if f.eta.msb then -f.eta else f.eta).setWidth 7 ++
        f.pt.setWidth 12 := by
  refine Eq.trans ?_ (place_toNat_zero _)
  simp only [place_append, encodeV3, signedEta, signedPhi, s64_eq_toInt, packSignMagnitude_mag, bitValue_eq_toNat,
    packUnsigned_eq, BitVec.or_assoc]
  simp [packSignMagnitude]

end words

/-- Settles O23: the word as a concatenation, then the decoder's row. -/
theorem encPfWord : Obligations.EncPfWord := by
  intro s q rest hq
  refine ⟨?_, runsOnlyOn_of_usesNone hq rfl fun hop hrsv => by simp [decode, hop, hrsv]⟩
  rw [exec_encPf hq, encodePf_eq_append]

/-- Settles O24, as O23; the two operations write one word. -/
theorem encV1AndV2Words : Obligations.EncV1AndV2Words := by
  intro s q rest hq
  refine ⟨?_, runsOnlyOn_of_usesNone hq rfl fun hop hrsv => by simp [decode, hop, hrsv], ?_,
    runsOnlyOn_of_usesNone hq rfl fun hop hrsv => by simp [decode, hop, hrsv]⟩
  · rw [exec_encV1 hq, encodeV1_eq_append]
  · rw [exec_encV2 hq, encodeV1_eq_append]

/-- Settles O25, as O23. -/
theorem encV3Word : Obligations.EncV3Word := by
  intro s q rest hq
  refine ⟨?_, runsOnlyOn_of_usesNone hq rfl fun hop hrsv => by simp [decode, hop, hrsv]⟩
  rw [exec_encV3 hq, encodeV3_eq_append]

section zeroWord

/-- Every field of the zero word reads as 0. -/
@[simp] theorem extractUnsigned_zero (off wid : Nat) : extractUnsigned 0#64 off wid = 0 := by
  simp [extractUnsigned]

/-- Every field of the zero word has the signed reading 0. -/
theorem extractTwosComplementLike_zero (off : Nat) {wid : Nat} (h : 0 < wid) :
    extractTwosComplementLike 0#64 off wid = 0 := by
  rw [extractTwosComplementLike_eq _ off h]
  simp

/-- Every sign and magnitude of the zero word read as 0: the sign bit 0 is the negative one, and -0 is 0 (R96). -/
@[simp] theorem extractSignMagnitude_zero (off sbp wid : Nat) : extractSignMagnitude 0#64 off sbp wid = 0 := by
  simp [extractSignMagnitude, smValue]

/-- The number 0 on an unsigned port. -/
@[simp] theorem unsignedPort_zero (n : Nat) : unsignedPort n 0 = some 0#n := rfl

/-- The number 0 on a signed port. -/
@[simp] theorem signedPort_zero (n : Nat) : signedPort n 0 = some 0#n := by
  simp [signedPort]

/-- The scaled pt of 0 on its port is the pattern of +0 (R69). -/
@[simp] theorem floatPort_ptFloat_zero (draw : Nat) : floatPort draw (ptFloat 0) = some 0 := by
  rw [ptFloat_eq (by decide), Nat.zero_mul]
  rfl

/-- The zero word passes every null-bits check. -/
@[simp] theorem passesNullBitsCheck_zero (n : Nat) : passesNullBitsCheck 0#64 n = true := by
  simp [passesNullBitsCheck]

end zeroWord

/-- Settles O27: every field of the zero word reads as 0, and no bit of it is set. -/
theorem zeroWordOfEveryLayout : Obligations.ZeroWordOfEveryLayout := by
  intro s q rest hq
  refine ⟨exec_zero hq, runsOnlyOn_of_usesNone hq rfl fun hop hrsv => by simp [decode, hop, hrsv],
    fun hzero l => ?_⟩
  have hword : wordA q = 0#64 := hzero
  refine ⟨?_, by rw [exec_checker hq, nullBitsResponse, hword, passesNullBitsCheck_zero]⟩
  cases l with
  | pf =>
    refine ⟨_, exec_decPf hq, ?_⟩
    simp [hword, decodePf, extractTwosComplementLike_zero]
  | v1 =>
    refine ⟨_, exec_decV1 hq, ?_⟩
    simp [hword, decodeV1, decodeGctCommon, wpFlags]
  | v2 =>
    refine ⟨_, exec_decV2 hq, ?_⟩
    simp [hword, decodeV2, decodeGctCommon, wpFlags]
  | v3 =>
    refine ⟨_, exec_decV3 hq, ?_⟩
    simp [hword, decodeV3, wpFlags]

section unusedBits

/-- A null-bits check passes exactly where every bit from unusedBitsStart up is 0 (R117). -/
theorem passesNullBitsCheck_iff (w : Word) (n : Nat) :
    passesNullBitsCheck w n = true ↔ ∀ k, k < 64 → n ≤ k → w.getLsbD k = false := by
  rw [passesNullBitsCheck, decide_eq_true_iff]
  constructor
  · intro h k _ hnk
    have hbit := BitVec.getLsbD_ushiftRight w n (k - n)
    rw [h, Nat.add_sub_cancel' hnk] at hbit
    simpa using hbit.symm
  · intro h
    apply BitVec.eq_of_getLsbD_eq
    intro k _
    rw [BitVec.getLsbD_ushiftRight]
    by_cases hk : n + k < 64
    · simpa using h (n + k) hk (by omega)
    · simp [BitVec.getLsbD_of_ge w (n + k) (by omega)]

/-- Every field but GCTWord-v3's brems ends below its layout's unusedBitsStart; of brems, bit 52 alone lies above
(R66, C3). -/
theorem covered_unusedBit (l : Layout) :
    ∀ k, k < 64 → l.unusedBitsStart ≤ k → ∀ x ∈ l.fields, x.covers k = true →
      l = .v3 ∧ k = 52 ∧ x = ⟨.brems, 51, 2, .unsigned⟩ := by
  cases l <;> decide

/-- Bit 52 of a GCTWord-v3 is the high bit of brems (C3). -/
theorem getLsbD_tableWord_v3_52 (f : FieldPorts) :
    (tableWord Layout.v3.fields f).getLsbD 52 = f.brems.getLsbD 1 := by
  rw [getLsbD_tableWord _ _ (by decide)]
  simp [Layout.fields, FieldSpec.covers, fieldInput, BitVec.testBit_toNat]

/-- A word of a layout's table passes the layout's check, but for GCTWord-v3 with the high bit of brems set (R66, R106). -/
theorem passesNullBitsCheck_tableWord (l : Layout) (f : FieldPorts) :
    passesNullBitsCheck (tableWord l.fields f) l.unusedBitsStart = true ↔ (l = .v3 → f.brems.getLsbD 1 = false) := by
  rw [passesNullBitsCheck_iff]
  constructor
  · rintro h rfl
    rw [← getLsbD_tableWord_v3_52]
    exact h 52 (by decide) (by decide)
  · intro h k hk hunused
    rw [getLsbD_tableWord _ _ hk, List.any_eq_false]
    intro x hx hbit
    obtain ⟨hcovers, hset⟩ := Bool.and_eq_true_iff.mp hbit
    obtain ⟨rfl, rfl, rfl⟩ := covered_unusedBit l k hk hunused x hx hcovers
    exact Bool.false_ne_true ((h rfl).symm.trans hset)

/-- The high bit of a two-bit field, as a bound on the field's value. -/
theorem getLsbD_one_eq_false_iff (w : Word) : w.getLsbD 1 = false ↔ w.toNat % 4 < 2 := by
  rw [← BitVec.testBit_toNat, Nat.testBit_eq_decide_div_mod_eq, decide_eq_false_iff_not]
  omega

end unusedBits

/-- Settles O28: the encoder's word is its table's, and a field that reaches the unused bits is GCTWord-v3's brems. -/
theorem encodedWordsPassTheirCheck : Obligations.EncodedWordsPassTheirCheck := by
  intro l s s' q q' rest rest' hq hq'
  obtain ⟨t, henc, hword⟩ := exec_encoder_word hq l
  refine ⟨t, _, henc, fun hword' => ⟨exec_checker hq' l, congrArg some ?_⟩⟩
  rw [wordA, ← Option.some.inj (hword.symm.trans hword'), Bool.eq_iff_iff, passesNullBitsCheck_tableWord,
    decide_eq_true_iff, getLsbD_one_eq_false_iff]

end Sys2Proof.Machine
end

section
/-! SUPPORT and PROOF. The cluster word decoder (spec/44_word_decoder.md R110 to R120): each port as a bit slice of `in.A`,
the bits a decoder reads, the null-bits check, and what an encoded word decodes to. -/

namespace Sys2Proof.Machine

section commands

variable {s : State} {q : Request} {rest : List Request}

/-- The encoding of an operation without fields is its code with every other bit 0 (R52). -/
theorem encode_fieldFree : ∀ i ∈ fieldFreeOperations, encode i = (cmdOp (encode i)).setWidth 32 := by
  decide

/-- The row of the decoder with the code of an operation without fields is that operation's (R52). -/
theorem decode_fieldFree {cmd : Command} {i : Instr} (hi : i ∈ fieldFreeOperations) (hop : cmdOp cmd = cmdOp (encode i))
    (hrsv : cmdRsv cmd = 0) : decode cmd = usesNone cmd i := by
  fin_cases hi <;> simp [decode, encode, hop, hrsv]

/-- An operation without fields runs on its encoding, and on no other command with its code (R53). -/
theorem runsOnlyOn_fieldFree (hq : s.inFlight = q :: rest) {i : Instr} (hi : i ∈ fieldFreeOperations) :
    s.runsOnlyOn q rest (cmdOp (encode i)) i :=
  runsOnlyOn_of_usesNone hq (encode_fieldFree i hi) (decode_fieldFree hi)

end commands

section slices

variable (w : Word) (draw : Nat)

/-- The working-point flags of a 2-bit field are its two bits (R70). -/
theorem wpFlags_slice (off : Nat) :
    wpFlags (w.extractLsb' off 2).toNat = (w.getLsbD off, w.getLsbD (off + 1)) := by
  simp only [wpFlags, BitVec.testBit_toNat, BitVec.getLsbD_extractLsb', Nat.add_zero, Nat.reduceLT, decide_true,
    Bool.true_and]

/-- `d.ptFloat` holds the pattern of half the pt count (R69). -/
theorem isHalves_ptFloat (pt : BitVec 12) : isHalves (bits32 draw (ptFloat pt.toNat)) pt.toNat := by
  rw [isHalves, ofBits_bits32_of_isNumber (ptFloat_isNumber _), ptFloat_eq pt.isLt]

/-- A two's-complement-like field on a port, sign-extended (R82). -/
theorem signedPort_twosComplementLike (n off : Nat) {wid : Nat} (h : 0 < wid) :
    signedPort n (extractTwosComplementLike w off wid) = some ((w.extractLsb' off wid).signExtend n) := by
  rw [extractTwosComplementLike_eq w off h, signedPort_toInt]

/-- The ports of DEC.PF as bit slices (R111). -/
theorem decodePf_eq :
    decodePf w draw =
      { pt := some (w.extractLsb' 0 12)
        ptFloat := floatPort draw (ptFloat (w.extractLsb' 0 12).toNat)
        eta := some ((w.extractLsb' 12 7).setWidth 16)
        phi := some ((w.extractLsb' 19 7).signExtend 16)
        hoe := some (w.extractLsb' 26 4) } := by
  simp only [decodePf, signedPort_twosComplementLike w 16 19 (wid := 7) (by decide), extractUnsigned_eq,
    unsignedPort_toNat_self, signedPort_toNat]

/-- The ports that DEC.V1 and DEC.V2 share, as bit slices (R112). -/
theorem decodeGctCommon_eq :
    decodeGctCommon w draw =
      { pt := some (w.extractLsb' 0 12)
        ptFloat := floatPort draw (ptFloat (w.extractLsb' 0 12).toNat)
        phi := some ((w.extractLsb' 19 7).setWidth 16)
        phiTC := some ((w.extractLsb' 19 7).signExtend 16)
        hoe := some (w.extractLsb' 26 4)
        hoeFlag := some (w.extractLsb' 30 2)
        iso := some (w.extractLsb' 32 3)
        isoFlag := some (w.extractLsb' 35 2)
        fb := some (w.extractLsb' 37 6)
        timing := some (w.extractLsb' 43 5)
        shapeFlag := some (w.extractLsb' 48 2)
        brems := some (w.extractLsb' 50 2)
        isoStandalone := some (w.getLsbD 35)
        isoLooseTrack := some (w.getLsbD 36)
        shapeStandalone := some (w.getLsbD 48)
        shapeLooseTrack := some (w.getLsbD 49) } := by
  simp only [decodeGctCommon, signedPort_twosComplementLike w 16 19 (wid := 7) (by decide), extractUnsigned_eq,
    unsignedPort_toNat_self, signedPort_toNat, wpFlags_slice]

/-- The ports of DEC.V1: the shared ones, and eta in both readings (R112). -/
theorem decodeV1_eq :
    decodeV1 w draw =
      { decodeGctCommon w draw with
        eta := some ((w.extractLsb' 12 7).setWidth 16)
        etaTC := some ((w.extractLsb' 12 7).signExtend 16) } := by
  rw [decodeV1, signedPort_twosComplementLike w 16 12 (by decide), extractUnsigned_eq, signedPort_toNat]

/-- The ports of DEC.V2: those of DEC.V1 with the wider eta window and the region index (R113). -/
theorem decodeV2_eq (region : Region) :
    decodeV2 w region draw =
      { decodeV1 w draw with
        eta := some ((w.extractLsb' 12 8).setWidth 16)
        etaTC := some ((w.extractLsb' 12 8).signExtend 16)
        region := some region } := by
  rw [decodeV2, signedPort_twosComplementLike w 16 12 (by decide), extractUnsigned_eq, signedPort_toNat, decodeV1]

/-- The ports of DEC.V3 as bit slices, the angles as sign and magnitude (R114). -/
theorem decodeV3_eq :
    decodeV3 w draw =
      { pt := some (w.extractLsb' 0 12)
        ptFloat := floatPort draw (ptFloat (w.extractLsb' 0 12).toNat)
        etaMag := some (w.extractLsb' 12 7)
        etaSign := some (w.getLsbD 19)
        phiMag := some (w.extractLsb' 20 6)
        phiSign := some (w.getLsbD 26)
        eta := some (if w.getLsbD 19 then (w.extractLsb' 12 7).setWidth 16 else -(w.extractLsb' 12 7).setWidth 16)
        phi := some (if w.getLsbD 26 then (w.extractLsb' 20 6).setWidth 16 else -(w.extractLsb' 20 6).setWidth 16)
        hoe := some (w.extractLsb' 27 4)
        hoeFlag := some (w.extractLsb' 31 2)
        iso := some (w.extractLsb' 33 3)
        isoFlag := some (w.extractLsb' 36 2)
        fb := some (w.extractLsb' 38 6)
        timing := some (w.extractLsb' 44 5)
        shapeFlag := some (w.extractLsb' 49 2)
        brems := some (w.extractLsb' 51 2)
        isoStandalone := some (w.getLsbD 36)
        isoLooseTrack := some (w.getLsbD 37)
        shapeStandalone := some (w.getLsbD 49)
        shapeLooseTrack := some (w.getLsbD 50) } := by
  simp only [decodeV3, extractSignMagnitude, extractUnsigned_eq, unsignedPort_toNat_self, signedPort_smValue,
    wpFlags_slice]

end slices

/-- Settles O29: the ports as bit slices, then the decoder's row. -/
theorem decPfPorts : Obligations.DecPfPorts := by
  intro s q rest hq
  refine ⟨⟨_, isHalves_ptFloat s.draws _, ?_⟩, runsOnlyOn_fieldFree hq (i := .decPf) (by decide)⟩
  rw [exec_decPf hq, decodePf_eq]
  rfl

/-- Settles O30, as O29. -/
theorem decV1Ports : Obligations.DecV1Ports := by
  intro s q rest hq
  refine ⟨⟨_, isHalves_ptFloat s.draws _, ?_⟩, runsOnlyOn_fieldFree hq (i := .decV1) (by decide)⟩
  rw [exec_decV1 hq, decodeV1_eq, decodeGctCommon_eq]
  rfl

/-- Settles O31: the ports are those of DEC.V1 but for the ones that DEC.V2 replaces. -/
theorem decV2Ports : Obligations.DecV2Ports := by
  intro s q rest hq
  refine ⟨⟨_, exec_decV1 hq, ?_⟩, runsOnlyOn_fieldFree hq (i := .decV2) (by decide)⟩
  rw [exec_decV2 hq, decodeV2_eq]
  rfl

/-- Settles O32, as O29. -/
theorem decV3Ports : Obligations.DecV3Ports := by
  intro s q rest hq
  refine ⟨⟨_, isHalves_ptFloat s.draws _, ?_⟩, runsOnlyOn_fieldFree hq (i := .decV3) (by decide)⟩
  rw [exec_decV3 hq, decodeV3_eq]
  rfl

section reads

/-- The end of a layout's highest field (R62 to R65). The gap bit of PFCrystalWord lies above it (R67). -/
def Layout.fieldsEnd : Layout → Nat
  | .pf => 30
  | .v1 => 52
  | .v2 => 52
  | .v3 => 53

/-- Every bit below the end of a layout's fields lies in a field. -/
theorem covered_of_lt_fieldsEnd (l : Layout) : ∀ k, k < l.fieldsEnd → ∃ x ∈ l.fields, x.covers k = true := by
  cases l <;> decide

variable {w w' : Word}

/-- A field below bit `n` depends on the bits below `n` only. -/
theorem extractUnsigned_congr_low {n off wid : Nat} (h : ∀ k, k < n → w'.getLsbD k = w.getLsbD k) (hle : off + wid ≤ n) :
    extractUnsigned w' off wid = extractUnsigned w off wid :=
  extractUnsigned_congr fun k _ hk => h k (by omega)

/-- The ports that DEC.V1 and DEC.V2 share are read from the bits below 52. -/
theorem decodeGctCommon_congr (h : ∀ k, k < 52 → w'.getLsbD k = w.getLsbD k) (draw : Nat) :
    decodeGctCommon w' draw = decodeGctCommon w draw := by
  simp only [decodeGctCommon, extractTwosComplementLike, extractUnsigned_congr_low h, Nat.reduceAdd, Nat.reduceLeDiff]

/-- DEC.V1 reads bits below 52 only. -/
theorem decodeV1_congr (h : ∀ k, k < 52 → w'.getLsbD k = w.getLsbD k) (draw : Nat) :
    decodeV1 w' draw = decodeV1 w draw := by
  simp only [decodeV1, decodeGctCommon_congr h, extractTwosComplementLike, extractUnsigned_congr_low h, Nat.reduceAdd,
    Nat.reduceLeDiff]

/-- DEC.V2 reads bits below 52 only. -/
theorem decodeV2_congr (h : ∀ k, k < 52 → w'.getLsbD k = w.getLsbD k) (region : Region) (draw : Nat) :
    decodeV2 w' region draw = decodeV2 w region draw := by
  simp only [decodeV2, decodeGctCommon_congr h, extractTwosComplementLike, extractUnsigned_congr_low h, Nat.reduceAdd,
    Nat.reduceLeDiff]

/-- DEC.V3 reads bits below 53 only. -/
theorem decodeV3_congr (h : ∀ k, k < 53 → w'.getLsbD k = w.getLsbD k) (draw : Nat) :
    decodeV3 w' draw = decodeV3 w draw := by
  simp only [decodeV3, extractSignMagnitude, extractUnsigned_congr_low h, h, Nat.reduceAdd, Nat.reduceLeDiff,
    Nat.reduceLT]

/-- A decoder's response depends on the bits below the end of its layout's fields and on the region index. -/
theorem operationResponse_decoder_congr {q q' : Request} (l : Layout) (hregion : q'.f.region = q.f.region)
    (h : ∀ k, k < l.fieldsEnd → q'.a.getLsbD k = q.a.getLsbD k) (draw : Nat) :
    operationResponse l.decoder q' draw = operationResponse l.decoder q draw := by
  cases l with
  | pf => simp only [Layout.decoder, operationResponse, wordA, decodePf_congr h]
  | v1 => simp only [Layout.decoder, operationResponse, wordA, decodeV1_congr h]
  | v2 => simp only [Layout.decoder, operationResponse, wordA, decodeV2_congr h, hregion]
  | v3 => simp only [Layout.decoder, operationResponse, wordA, decodeV3_congr h]

/-- A layout's decode operation answers every request with its response: it has no constraint to fail (R53, R115). -/
theorem exec_decoder {s : State} {q : Request} {rest : List Request} (hq : s.inFlight = q :: rest) (l : Layout) :
    exec l.decoder s = .next (s.answered rest (operationResponse l.decoder q s.draws)) := by
  rw [exec_pending hq, if_pos (by cases l <;> rfl)]

end reads

/-- Settles O33: the bits a decoder reads all lie in fields. -/
theorem decodersReadFieldBitsOnly : Obligations.DecodersReadFieldBitsOnly := by
  intro l s q q' rest hq hregion hfields
  refine ⟨_, operationResponse_illegal l.decoder q s.draws, exec_decoder hq l, ?_⟩
  rw [exec_decoder rfl, operationResponse_decoder_congr l hregion fun k hk => hfields k (covered_of_lt_fieldsEnd l k hk)]
  rfl

/-- The null-bits check as a comparison of the word's top bits with 0 (R117). -/
theorem passesNullBitsCheck_eq_decide (w : Word) {n len : Nat} (h : n + len = 64) :
    passesNullBitsCheck w n = decide (w.extractLsb' n len = 0) := by
  have hlt : w.toNat >>> n < 2 ^ len := by
    rw [Nat.shiftRight_eq_div_pow, Nat.div_lt_iff_lt_mul (Nat.two_pow_pos n), ← Nat.pow_add, Nat.add_comm, h]
    exact w.isLt
  have hiff : w >>> n = 0 ↔ w.extractLsb' n len = 0 := by
    rw [← BitVec.toNat_inj, ← BitVec.toNat_inj, BitVec.toNat_ushiftRight, BitVec.extractLsb'_toNat, Nat.mod_eq_of_lt hlt]
    rfl
  rw [passesNullBitsCheck, decide_eq_decide.mpr hiff]

/-- Settles O34: each check answers for its layout's unusedBitsStart, and runs as the decoder's row says. -/
theorem nullBitsChecks : Obligations.NullBitsChecks := by
  intro s q rest hq
  have hcheck (l : Layout) {len : Nat} (h : l.unusedBitsStart + len = 64) :
      exec l.checker s = .next (s.answered rest
        { illegal := some false, ok := some (decide (q.a.extractLsb' l.unusedBitsStart len = 0)) }) := by
    rw [exec_checker hq, nullBitsResponse, wordA, passesNullBitsCheck_eq_decide q.a h]
  exact ⟨⟨hcheck .pf rfl, runsOnlyOn_fieldFree hq (i := .chkPf) (by decide)⟩,
    ⟨hcheck .v1 rfl, runsOnlyOn_fieldFree hq (i := .chkV1) (by decide)⟩,
    ⟨hcheck .v2 rfl, runsOnlyOn_fieldFree hq (i := .chkV2) (by decide)⟩,
    ⟨hcheck .v3 rfl, runsOnlyOn_fieldFree hq (i := .chkV3) (by decide)⟩⟩

section encoded

/-- No bit lies in two fields of a layout. -/
theorem covers_unique (l : Layout) {x y : FieldSpec} (hx : x ∈ l.fields) (hy : y ∈ l.fields) {k : Nat}
    (hxk : x.covers k = true) (hyk : y.covers k = true) : x = y := by
  by_contra hne
  have hsymm : Std.Symm fun x y : FieldSpec => x.disjoint y = true := ⟨fun x y => by
    simp only [FieldSpec.disjoint, Bool.or_comm, imp_self]⟩
  have hdisjoint := (fields_pairwise_disjoint l).forall hx hy hne
  simp only [FieldSpec.disjoint, FieldSpec.covers, Bool.or_eq_true, Bool.and_eq_true, decide_eq_true_eq]
    at hdisjoint hxk hyk
  omega

variable {l : Layout} {w : Word} {f : FieldPorts} (hw : w = tableWord l.fields f) {x : FieldSpec} (hx : x ∈ l.fields)

include hw hx

/-- A bit of a field of an encoded word is the bit of the field's input. -/
theorem getLsbD_encoded {k : Nat} (hk : k < x.width) : w.getLsbD (x.offset + k) = (fieldInput f x.name).testBit k := by
  have hinside := fields_inside_word l x hx
  have hcovers : x.covers (x.offset + k) = true := by simp [FieldSpec.covers, hk]
  rw [hw, getLsbD_tableWord _ _ (by omega), Bool.eq_iff_iff, List.any_eq_true]
  constructor
  · rintro ⟨y, hy, hbit⟩
    obtain ⟨hycovers, hset⟩ := Bool.and_eq_true_iff.mp hbit
    obtain rfl := covers_unique l hx hy hcovers hycovers
    rwa [Nat.add_sub_cancel_left] at hset
  · intro hset
    refine ⟨x, hx, Bool.and_eq_true_iff.mpr ⟨hcovers, ?_⟩⟩
    rwa [Nat.add_sub_cancel_left]

/-- A field of an encoded word holds the field's input, cut to the field's width (R116). -/
theorem extractLsb'_encoded : w.extractLsb' x.offset x.width = BitVec.ofNat x.width (fieldInput f x.name) := by
  apply BitVec.eq_of_getLsbD_eq
  intro k hk
  rw [BitVec.getLsbD_extractLsb', getLsbD_encoded hw hx hk, BitVec.getLsbD_ofNat]

/-- A field of an encoded word as a number. -/
theorem extractUnsigned_encoded : extractUnsigned w x.offset x.width = fieldInput f x.name % 2 ^ x.width := by
  rw [extractUnsigned_eq, extractLsb'_encoded hw hx, BitVec.toNat_ofNat]

/-- A field of an encoded word whose input is a 64-bit port holds the port's low bits. -/
theorem extractLsb'_encoded_word {v : Word} (hv : fieldInput f x.name = v.toNat) :
    w.extractLsb' x.offset x.width = v.setWidth x.width := by
  rw [extractLsb'_encoded hw hx, hv, BitVec.ofNat_toNat]

end encoded

/-- Each layout's encode operation answers with the word of its table, and with no other. -/
theorem exec_encoder_encoded {s : State} {q : Request} {rest : List Request} (hq : s.inFlight = q :: rest) (l : Layout) :
    ∃ t : State, exec l.encoder s = .next t ∧ ∀ w, t.out.word = some w → w = tableWord l.fields q.f := by
  obtain ⟨t, henc, hword⟩ := exec_encoder_word hq l
  exact ⟨t, henc, fun w hw => Option.some.inj (hw.symm.trans hword)⟩

/-- The shared ports of DEC.V1 and DEC.V2 on an encoded word: each unsigned input cut to its width. -/
theorem decodeGctCommon_encoded {w : Word} {f : FieldPorts} (hw : w = tableWord gctFields f) (draw : Nat) :
    let d := decodeGctCommon w draw
    (d.pt = some (f.pt.setWidth 12) ∧ d.hoe = some (f.hoe.setWidth 4)) ∧
      d.phi = some ((f.phi.setWidth 7).setWidth 16) ∧ d.hoeFlag = some (f.hoeFlag.setWidth 2) ∧
      d.iso = some (f.iso.setWidth 3) ∧ d.isoFlag = some (f.isoFlag.setWidth 2) ∧ d.fb = some (f.fb.setWidth 6) ∧
      d.timing = some (f.timing.setWidth 5) ∧ d.shapeFlag = some (f.shapeFlag.setWidth 2) ∧
      d.brems = some (f.brems.setWidth 2) := by
  have hfield (x : FieldSpec) (hx : x ∈ gctFields) {v : Word} (hv : fieldInput f x.name = v.toNat) :
      w.extractLsb' x.offset x.width = v.setWidth x.width := extractLsb'_encoded_word (l := .v1) hw hx hv
  rw [decodeGctCommon_eq]
  exact ⟨⟨congrArg some (hfield ⟨.pt, 0, 12, .unsigned⟩ (by decide) rfl),
      congrArg some (hfield ⟨.hoe, 26, 4, .unsigned⟩ (by decide) rfl)⟩,
    congrArg (fun x => some (x.setWidth 16)) (hfield ⟨.phi, 19, 7, .unsigned⟩ (by decide) rfl),
    congrArg some (hfield ⟨.hoeFlag, 30, 2, .unsigned⟩ (by decide) rfl),
    congrArg some (hfield ⟨.iso, 32, 3, .unsigned⟩ (by decide) rfl),
    congrArg some (hfield ⟨.isoFlag, 35, 2, .unsigned⟩ (by decide) rfl),
    congrArg some (hfield ⟨.fb, 37, 6, .unsigned⟩ (by decide) rfl),
    congrArg some (hfield ⟨.timing, 43, 5, .unsigned⟩ (by decide) rfl),
    congrArg some (hfield ⟨.shapeFlag, 48, 2, .unsigned⟩ (by decide) rfl),
    congrArg some (hfield ⟨.brems, 50, 2, .unsigned⟩ (by decide) rfl)⟩

/-- DEC.V1's eta on an encoded word. -/
theorem decodeV1_encoded_eta {w : Word} {f : FieldPorts} (hw : w = tableWord gctFields f) (draw : Nat) :
    (decodeV1 w draw).eta = some ((f.eta.setWidth 7).setWidth 16) := by
  rw [decodeV1_eq]
  exact congrArg (fun x => some (x.setWidth 16))
    (extractLsb'_encoded_word (l := .v1) hw (x := ⟨.eta, 12, 7, .unsigned⟩) (by decide) rfl)

/-- DEC.V2's eta window on an encoded word holds the eta field and, above it, the low bit of phi (R64, C7). -/
theorem toNat_etaWindow_encoded {w : Word} {f : FieldPorts} (hw : w = tableWord gctFields f) :
    ((w.extractLsb' 12 8).setWidth 16).toNat = f.eta.toNat % 128 + 128 * (f.phi.toNat % 2) := by
  have heta : w.toNat / 2 ^ 12 % 2 ^ 7 = f.eta.toNat % 2 ^ 7 :=
    (extractUnsigned_eq_div_mod w 12 7).symm.trans
      (extractUnsigned_encoded (l := .v1) hw (x := ⟨.eta, 12, 7, .unsigned⟩) (by decide))
  have hphi : w.toNat / 2 ^ 19 % 2 ^ 7 = f.phi.toNat % 2 ^ 7 :=
    (extractUnsigned_eq_div_mod w 19 7).symm.trans
      (extractUnsigned_encoded (l := .v1) hw (x := ⟨.phi, 19, 7, .unsigned⟩) (by decide))
  rw [BitVec.toNat_setWidth_of_le (by decide), ← extractUnsigned_eq, extractUnsigned_eq_div_mod]
  omega

/-- The ports of DEC.PF on an encoded word: each input cut to its width, phi read as two's complement (C2). -/
theorem decodePf_encoded {w : Word} {f : FieldPorts} (hw : w = tableWord Layout.pf.fields f) (draw : Nat) :
    let d := decodePf w draw
    (d.pt = some (f.pt.setWidth 12) ∧ d.hoe = some (f.hoe.setWidth 4)) ∧
      d.eta = some ((f.eta.setWidth 7).setWidth 16) ∧ d.phi = some ((f.phi.setWidth 7).signExtend 16) := by
  have hfield (x : FieldSpec) (hx : x ∈ Layout.pf.fields) {v : Word} (hv : fieldInput f x.name = v.toNat) :
      w.extractLsb' x.offset x.width = v.setWidth x.width := extractLsb'_encoded_word hw hx hv
  rw [decodePf_eq]
  exact ⟨⟨congrArg some (hfield ⟨.pt, 0, 12, .unsigned⟩ (by decide) rfl),
      congrArg some (hfield ⟨.hoe, 26, 4, .unsigned⟩ (by decide) rfl)⟩,
    congrArg (fun x => some (x.setWidth 16)) (hfield ⟨.eta, 12, 7, .unsigned⟩ (by decide) rfl),
    congrArg (fun x => some (x.signExtend 16)) (hfield ⟨.phi, 19, 7, .twosComplementLike⟩ (by decide) rfl)⟩

/-- A signed value in [-64, 63] is the two's-complement reading of its low 7 bits (C2). -/
theorem toInt_signExtend_setWidth_seven {v : Word} (hlo : -64 ≤ v.toInt) (hhi : v.toInt ≤ 63) :
    ((v.setWidth 7).signExtend 16).toInt = v.toInt := by
  rw [BitVec.toInt_signExtend_of_le (by decide),
    toInt_setWidth_of_inRange v (wid := 7) (by decide) (by decide) hlo hhi]

/-- Settles O36: the encoded word is its table's (O26), and the decoder reads the fields of that table. -/
theorem pfV1V2RoundTrip : Obligations.PfV1V2RoundTrip := by
  intro l s s' q q' rest rest' hl hq hq'
  obtain ⟨t, henc, hencoded⟩ := exec_encoder_encoded hq l
  refine ⟨t, _, henc, fun hword => ⟨exec_decoder hq' l, ?_⟩⟩
  have hw := hencoded q'.a hword
  cases l with
  | pf =>
    obtain ⟨⟨hpt, hhoe⟩, heta, hphi⟩ := decodePf_encoded hw s'.draws
    exact ⟨hpt, hhoe, fun _ => ⟨heta, hphi, toInt_signExtend_setWidth_seven⟩, fun h => absurd rfl h, nofun, nofun⟩
  | v1 =>
    obtain ⟨⟨hpt, hhoe⟩, hrest⟩ := decodeGctCommon_encoded hw s'.draws
    exact ⟨hpt, hhoe, nofun, fun _ => hrest, fun _ => decodeV1_encoded_eta hw s'.draws, nofun⟩
  | v2 =>
    obtain ⟨⟨hpt, hhoe⟩, hrest⟩ := decodeGctCommon_encoded hw s'.draws
    refine ⟨hpt, hhoe, nofun, fun _ => hrest, nofun, fun _ => ⟨_, ?_, toNat_etaWindow_encoded hw⟩⟩
    exact congrArg ClusterPorts.eta (decodeV2_eq q'.a s'.draws q'.f.region)
  | v3 => exact absurd rfl hl

/-- The sign and the truncated magnitude of a value, read back through a signed port: the value where the magnitude
fits, else its sign times the truncated magnitude (R116). -/
theorem signedPort_packed_signMagnitude {w : Word} {off sbp wid : Nat} {v : Int} (hwid : 2 ^ wid ≤ 128)
    (hsign : w.getLsbD sbp = decide (0 < v)) (hmag : extractUnsigned w off wid = v.natAbs % 2 ^ wid) :
    ∃ x, signedPort 16 (extractSignMagnitude w off sbp wid) = some x ∧
      (v.natAbs < 2 ^ wid → x.toInt = v) ∧ x.toInt = v.sign * (v.natAbs % 2 ^ wid : Nat) := by
  obtain ⟨hlo, hhi⟩ := extractSignMagnitude_bounds w off sbp hwid
  have hvalue : extractSignMagnitude w off sbp wid = v.sign * (v.natAbs % 2 ^ wid : Nat) := by
    rw [extractSignMagnitude, hsign, hmag, smValue_eq_mul, ← signBit_mul_truncated_magnitude]
    simp only [decide_eq_true_eq]
  have hport : (BitVec.ofInt 16 (extractSignMagnitude w off sbp wid)).toInt = v.sign * (v.natAbs % 2 ^ wid : Nat) := by
    rw [BitVec.toInt_ofInt_eq_self (by decide) (by omega) (by omega), hvalue]
  exact ⟨_, rfl, fun hfits => by rw [hport, Nat.mod_eq_of_lt hfits, Int.sign_mul_natAbs], hport⟩

/-- The sign bit that the FieldSpec table gives for a value is 1 exactly for a positive one (R95). -/
theorem testBit_signInput (v : Int) : (if 0 < v then 1 else 0 : Nat).testBit 0 = decide (0 < v) := by
  split <;> simp [*]

section v3

variable {w : Word} {f : FieldPorts} (hw : w = tableWord Layout.v3.fields f) (draw : Nat)

include hw

/-- The unsigned ports of DEC.V3 on an encoded word: each input cut to its width. -/
theorem decodeV3_encoded_unsigned :
    let d := decodeV3 w draw
    d.pt = some (f.pt.setWidth 12) ∧ d.hoe = some (f.hoe.setWidth 4) ∧ d.hoeFlag = some (f.hoeFlag.setWidth 2) ∧
      d.iso = some (f.iso.setWidth 3) ∧ d.isoFlag = some (f.isoFlag.setWidth 2) ∧ d.fb = some (f.fb.setWidth 6) ∧
      d.timing = some (f.timing.setWidth 5) ∧ d.shapeFlag = some (f.shapeFlag.setWidth 2) ∧
      d.brems = some (f.brems.setWidth 2) := by
  have hfield (x : FieldSpec) (hx : x ∈ Layout.v3.fields) {v : Word} (hv : fieldInput f x.name = v.toNat) :
      w.extractLsb' x.offset x.width = v.setWidth x.width := extractLsb'_encoded_word hw hx hv
  rw [decodeV3_eq]
  exact ⟨congrArg some (hfield ⟨.pt, 0, 12, .unsigned⟩ (by decide) rfl),
    congrArg some (hfield ⟨.hoe, 27, 4, .unsigned⟩ (by decide) rfl),
    congrArg some (hfield ⟨.hoeFlag, 31, 2, .unsigned⟩ (by decide) rfl),
    congrArg some (hfield ⟨.iso, 33, 3, .unsigned⟩ (by decide) rfl),
    congrArg some (hfield ⟨.isoFlag, 36, 2, .unsigned⟩ (by decide) rfl),
    congrArg some (hfield ⟨.fb, 38, 6, .unsigned⟩ (by decide) rfl),
    congrArg some (hfield ⟨.timing, 44, 5, .unsigned⟩ (by decide) rfl),
    congrArg some (hfield ⟨.shapeFlag, 49, 2, .unsigned⟩ (by decide) rfl),
    congrArg some (hfield ⟨.brems, 51, 2, .unsigned⟩ (by decide) rfl)⟩

/-- DEC.V3's eta on an encoded word: the signed input, its magnitude cut to 7 bits. -/
theorem decodeV3_encoded_eta :
    ∃ eta, (decodeV3 w draw).eta = some eta ∧ (f.eta.toInt.natAbs < 128 → eta.toInt = f.eta.toInt) ∧
      eta.toInt = f.eta.toInt.sign * (f.eta.toInt.natAbs % 128 : Nat) :=
  signedPort_packed_signMagnitude (by decide)
    ((getLsbD_encoded hw (x := ⟨.etaSign, 19, 1, .signMagnitude⟩) (by decide) Nat.one_pos).trans (testBit_signInput _))
    (extractUnsigned_encoded hw (x := ⟨.etaMag, 12, 7, .signMagnitude⟩) (by decide))

/-- DEC.V3's phi on an encoded word: the signed input, its magnitude cut to 6 bits. -/
theorem decodeV3_encoded_phi :
    ∃ phi, (decodeV3 w draw).phi = some phi ∧ (f.phi.toInt.natAbs < 64 → phi.toInt = f.phi.toInt) ∧
      phi.toInt = f.phi.toInt.sign * (f.phi.toInt.natAbs % 64 : Nat) :=
  signedPort_packed_signMagnitude (by decide)
    ((getLsbD_encoded hw (x := ⟨.phiSign, 26, 1, .signMagnitude⟩) (by decide) Nat.one_pos).trans (testBit_signInput _))
    (extractUnsigned_encoded hw (x := ⟨.phiMag, 20, 6, .signMagnitude⟩) (by decide))

end v3

/-- Settles O37: as O36, and the angles are read back from their sign and magnitude fields. -/
theorem v3RoundTrip : Obligations.V3RoundTrip := by
  intro s s' q q' rest rest' hq hq'
  obtain ⟨t, henc, hencoded⟩ := exec_encoder_encoded hq .v3
  refine ⟨t, _, henc, fun hword => ⟨exec_decoder hq' .v3, ?_⟩⟩
  have hw := hencoded q'.a hword
  obtain ⟨hpt, hrest⟩ := decodeV3_encoded_unsigned hw s'.draws
  obtain ⟨eta, heta, hetaFits, hetaCut⟩ := decodeV3_encoded_eta hw s'.draws
  obtain ⟨phi, hphi, hphiFits, hphiCut⟩ := decodeV3_encoded_phi hw s'.draws
  exact ⟨hpt, ⟨eta, heta, fun _ _ => hetaFits (by omega), hetaCut⟩,
    ⟨phi, hphi, fun _ _ => hphiFits (by omega), hphiCut⟩, hrest⟩

end Sys2Proof.Machine
end

section
/-! SUPPORT. The energy fraction on exact magnitudes (spec/45_energy_fraction.md R130 to R132, R135): rounding depends on the
quotient alone and keeps order, a fraction is at most its total and the difference of the two is exact (Sterbenz), and the
pattern of a value that is not negative grows with the value. -/

namespace Sys2Proof.Machine

section rounding

/-- Rounding to nearest depends on the quotient alone. -/
theorem divNearestEven_mul_right (num den : Nat) {c : Nat} (hc : 0 < c) :
    divNearestEven (num * c) (den * c) = divNearestEven num den := by
  simp only [divNearestEven, Nat.mul_div_mul_right _ _ hc, Nat.mul_mod_mul_right, ← Nat.mul_assoc,
    Nat.mul_lt_mul_right hc]

/-- Rounding to 24 significant bits depends on the quotient alone. -/
theorem roundUnits_mul_right (num den : Nat) {c : Nat} (hc : 0 < c) :
    roundUnits (num * c) (den * c) = roundUnits num den := by
  simp only [roundUnits, Nat.mul_div_mul_right _ _ hc, Nat.mul_right_comm den c, divNearestEven_mul_right _ _ hc]

variable {num den m : Nat} (hd : 0 < den)
include hd

/-- A quotient of at most a representable magnitude is rounded to at most that magnitude. -/
theorem roundUnits_le (hm : Representable m) (h : num ≤ m * den) : roundUnits num den ≤ m := by
  obtain ⟨hnear, -⟩ := roundUnits_nearest num hd hm
  exact Nat.le_of_mul_le_mul_right (by omega) hd

/-- A quotient of at least a representable magnitude is rounded to at least that magnitude. -/
theorem le_roundUnits (hm : Representable m) (h : m * den ≤ num) : m ≤ roundUnits num den := by
  obtain ⟨hnear, -⟩ := roundUnits_nearest num hd hm
  exact Nat.le_of_mul_le_mul_right (by omega) hd

/-- Rounding to 24 significant bits keeps the order of two magnitudes with one divisor: were the results in the other order,
both magnitudes would lie midway between them. -/
theorem roundUnits_mono {num' : Nat} (hle : num ≤ num') (h : roundUnits num den < overflowUnits)
    (h' : roundUnits num' den < overflowUnits) : roundUnits num den ≤ roundUnits num' den := by
  by_contra hgt
  have hscaled := Nat.mul_lt_mul_of_pos_right (Nat.lt_of_not_le hgt) hd
  obtain ⟨hnear, -⟩ := roundUnits_nearest num hd (representable_roundUnits hd h')
  obtain ⟨hnear', -⟩ := roundUnits_nearest num' hd (representable_roundUnits hd h)
  obtain rfl : num = num' := by omega
  exact hgt le_rfl

end rounding

section sterbenz

/-- A magnitude below a representable one that is a multiple of the same power of two, its last place, is representable. -/
theorem representable_sub_of_le {k e m n : Nat} (hk : k < 2 ^ 24) (hlt : k * 2 ^ e < overflowUnits)
    (hm : 2 ^ e ∣ m) (hn : 2 ^ e ∣ n) (hle : m - n ≤ k * 2 ^ e) : Representable (m - n) := by
  obtain ⟨c, hc⟩ := Nat.dvd_sub hm hn
  rw [hc, Nat.mul_comm] at hle ⊢
  have hck := Nat.le_of_mul_le_mul_right hle (Nat.two_pow_pos e)
  exact ⟨lt_of_le_of_lt hle hlt, c, e, lt_of_le_of_lt hck hk, rfl⟩

/-- Sterbenz: the difference of two representable magnitudes of which the smaller is at least half the larger is
representable. It is a multiple of the finer of the two last places, and at most the magnitude that has it. -/
theorem representable_sub_of_le_two_mul {m n : Nat} (hm : Representable m) (hn : Representable n) (hhalf : m ≤ 2 * n) :
    Representable (m - n) := by
  obtain ⟨hmlt, a, i, ha, rfl⟩ := hm
  obtain ⟨hnlt, b, j, hb, rfl⟩ := hn
  rcases Nat.le_total i j with h | h
  · exact representable_sub_of_le ha hmlt (Nat.dvd_mul_left _ _) (Dvd.dvd.mul_left (Nat.pow_dvd_pow 2 h) b)
      (Nat.sub_le _ _)
  · exact representable_sub_of_le hb hnlt (Dvd.dvd.mul_left (Nat.pow_dvd_pow 2 h) a) (Nat.dvd_mul_left _ _) (by omega)

/-- A representable magnitude is below 2^24 units, or twice a representable one. -/
theorem representable_lt_or_double {m : Nat} (hm : Representable m) :
    m < 2 ^ 24 ∨ ∃ n, m = 2 * n ∧ Representable n := by
  obtain ⟨hlt, k, e, hk, rfl⟩ := hm
  cases e with
  | zero => exact .inl (by simpa using hk)
  | succ e =>
    have hle : k * 2 ^ e ≤ k * 2 ^ (e + 1) := Nat.mul_le_mul_left k (Nat.pow_le_pow_right (by decide) e.le_succ)
    exact .inr ⟨k * 2 ^ e, by ring, lt_of_le_of_lt hle hlt, k, e, hk, rfl⟩

end sterbenz

section fraction

variable {m : Nat}

/-- The product of a representable total and a power of two is rounded to itself, or overflows (R130). -/
theorem mulf_two_pow (neg : Bool) (hm : Representable m) (h : Nat) :
    mulf (.finite neg m) (f32 (2 ^ h)) = if m * 2 ^ h < overflowUnits then .finite neg (m * 2 ^ h) else .inf neg := by
  obtain ⟨-, k, e, hk, rfl⟩ := hm
  simp only [f32, mulf, rne32, roundUnits_product hk h, Bool.bne_false]

variable (hm : Representable m)
include hm

/-- The fraction of a finite total whose product does not overflow: the exact quotient rounded once (R131). -/
theorem fracPart_of_lt (neg : Bool) {h : Nat} (hlt : m * 2 ^ h < overflowUnits) :
    fracPart (.finite neg m) h = rne32 neg (m * 2 ^ h) (2 ^ h + 1) := by
  have hpos : (2 ^ h + 1) * unitsOfOne ≠ 0 := Nat.mul_ne_zero (Nat.succ_ne_zero _) unitsOfOne_pos.ne'
  rw [fracPart, mulf_two_pow neg hm, if_pos hlt]
  simp only [f32, divf, if_neg hpos, rne32, roundUnits_mul_right _ _ unitsOfOne_pos, Bool.bne_false]

/-- The fraction of a finite total whose product overflows: the infinity of its sign (R131). -/
theorem fracPart_of_ge (neg : Bool) {h : Nat} (hge : ¬m * 2 ^ h < overflowUnits) : fracPart (.finite neg m) h = .inf neg := by
  rw [fracPart, mulf_two_pow neg hm, if_neg hge]
  simp only [f32, divf, Bool.bne_false]

/-- The fraction of a total is at most the total (R135 (c)). -/
theorem fraction_le (h : Nat) : roundUnits (m * 2 ^ h) (2 ^ h + 1) ≤ m :=
  roundUnits_le (Nat.succ_pos _) hm (Nat.mul_le_mul_left m (Nat.le_succ _))

/-- The fraction of a total is a finite magnitude. -/
theorem fraction_lt_overflow (h : Nat) : roundUnits (m * 2 ^ h) (2 ^ h + 1) < overflowUnits :=
  lt_of_le_of_lt (fraction_le hm h) hm.1

/-- The fraction of a total is representable. -/
theorem representable_fraction (h : Nat) : Representable (roundUnits (m * 2 ^ h) (2 ^ h + 1)) :=
  representable_roundUnits (Nat.succ_pos _) (fraction_lt_overflow hm h)

/-- The fraction of a total whose product does not overflow, as a finite value. -/
theorem fracPart_eq_finite (neg : Bool) {h : Nat} (hlt : m * 2 ^ h < overflowUnits) :
    fracPart (.finite neg m) h = .finite neg (roundUnits (m * 2 ^ h) (2 ^ h + 1)) :=
  (fracPart_of_lt hm neg hlt).trans (rne32_finite (fraction_lt_overflow hm h))

/-- The total less its fraction is representable: it is below 2^24 units, or the fraction is at least half the total. -/
theorem representable_sub_fraction (h : Nat) : Representable (m - roundUnits (m * 2 ^ h) (2 ^ h + 1)) := by
  rcases representable_lt_or_double hm with hsmall | ⟨n, rfl, hn⟩
  · exact ⟨lt_of_le_of_lt (Nat.sub_le _ _) hm.1, _, 0, lt_of_le_of_lt (Nat.sub_le _ _) hsmall, (Nat.mul_one _).symm⟩
  · have hquotient : n * (2 ^ h + 1) ≤ 2 * n * 2 ^ h := by nlinarith [Nat.one_le_two_pow (n := h)]
    have hhalf : n ≤ roundUnits (2 * n * 2 ^ h) (2 ^ h + 1) := le_roundUnits (Nat.succ_pos _) hn hquotient
    exact representable_sub_of_le_two_mul hm (representable_fraction hm h) (by omega)

/-- The fraction of a total does not decrease with the hoeCode (R135 (a)): over one divisor, the exact quotients are in
order. -/
theorem fraction_mono {h h' : Nat} (hh : h ≤ h') :
    roundUnits (m * 2 ^ h) (2 ^ h + 1) ≤ roundUnits (m * 2 ^ h') (2 ^ h' + 1) := by
  have hlt := fraction_lt_overflow hm h
  have hlt' := fraction_lt_overflow hm h'
  rw [← roundUnits_mul_right _ _ (Nat.succ_pos (2 ^ h'))] at hlt ⊢
  rw [← roundUnits_mul_right (m * 2 ^ h') _ (Nat.succ_pos (2 ^ h)), Nat.mul_comm (2 ^ h' + 1)] at hlt' ⊢
  refine roundUnits_mono (Nat.mul_pos (Nat.succ_pos _) (Nat.succ_pos _)) ?_ hlt hlt'
  have hpow : 2 ^ h ≤ 2 ^ h' := Nat.pow_le_pow_right (by decide) hh
  rw [Nat.mul_assoc, Nat.mul_assoc]
  exact Nat.mul_le_mul_left m (by nlinarith)

end fraction

section split

variable {m f : Nat} {neg : Bool}

/-- A representable magnitude is rounded to itself. -/
theorem rne32_of_representable (neg : Bool) (hm : Representable m) : rne32 neg m 1 = .finite neg m := by
  obtain ⟨hlt, k, e, hk, rfl⟩ := hm
  have hexact := roundUnits_exact (e := e) hk Nat.one_pos
  rw [Nat.mul_one] at hexact
  rw [rne32_finite (by rwa [hexact]), hexact]

/-- The difference of two magnitudes under one sign, the larger first. -/
theorem signedUnits_sub (neg : Bool) (hle : f ≤ m) :
    signedUnits neg m - signedUnits neg f = signedUnits neg (m - f) := by
  cases neg <;> simp only [signedUnits, Bool.false_eq_true, if_true, if_false] <;> omega

/-- The magnitude of a signed number of units. -/
theorem natAbs_signedUnits (neg : Bool) (n : Nat) : (signedUnits neg n).natAbs = n := by
  cases neg <;> simp [signedUnits]

/-- The sign of a signed number of units that is not zero. -/
theorem decide_signedUnits_neg (neg : Bool) {n : Nat} (hn : 0 < n) : decide (signedUnits neg n < 0) = neg := by
  cases neg <;> simp [signedUnits, hn]

/-- A total less a part of it of the same sign is exact where the difference is representable, and +0 where it is zero
(R132; log 11). -/
theorem subf_part (hle : f ≤ m) (hsub : Representable (m - f)) :
    subf (.finite neg m) (.finite neg f) = .finite (neg && decide (f ≠ m)) (m - f) := by
  simp only [subf, signedUnits_sub neg hle, natAbs_signedUnits]
  rcases Nat.eq_or_lt_of_le hle with rfl | hlt
  · simp [signedUnits]
  · have hpos : 0 < m - f := Nat.sub_pos_of_lt hlt
    have hne : signedUnits neg (m - f) ≠ 0 := by rw [← Int.natAbs_ne_zero, natAbs_signedUnits]; exact hpos.ne'
    rw [if_neg hne, decide_signedUnits_neg neg hpos, rne32_of_representable neg hsub, decide_eq_true hlt.ne, Bool.and_true]

variable {hoe4 : BitVec 4}

/-- The split of a finite total whose product does not overflow: the fraction, or exactly the total less it (R132). -/
theorem emSplit_of_lt (hm : Representable m) (hlt : m * 2 ^ hoeCode hoe4 < overflowUnits) :
    let f := roundUnits (m * 2 ^ hoeCode hoe4) (2 ^ hoeCode hoe4 + 1)
    emSplit (.finite neg m) hoe4 =
      if isEmBigger hoe4 then .finite neg f else .finite (neg && decide (f ≠ m)) (m - f) := by
  rw [emSplit, fracPart_eq_finite hm neg hlt, subf_part (fraction_le hm _) (representable_sub_fraction hm _)]

/-- The split of a finite total whose product overflows: the fraction's infinity, or the opposite one (R132). -/
theorem emSplit_of_ge (hm : Representable m) (hge : ¬m * 2 ^ hoeCode hoe4 < overflowUnits) :
    emSplit (.finite neg m) hoe4 = .inf (if isEmBigger hoe4 then neg else !neg) := by
  rw [emSplit, fracPart_of_ge hm neg hge]
  split <;> rfl

/-- An infinity times a finite value that is not zero is an infinity. -/
theorem mulf_inf_finite (a b : Bool) {n : Nat} (hn : n ≠ 0) : mulf (.inf a) (.finite b n) = .inf (a ^^ b) := if_neg hn

/-- An infinity divided by a finite value is an infinity. -/
theorem divf_inf_finite (a b : Bool) (n : Nat) : divf (.inf a) (.finite b n) = .inf (a ^^ b) := rfl

/-- Infinity less itself is a NaN. -/
theorem subf_inf_self (a : Bool) : subf (.inf a) (.inf a) = .nan := if_pos rfl

/-- The fraction of an infinity is that infinity (R131). -/
theorem fracPart_inf (neg : Bool) (h : Nat) : fracPart (.inf neg) h = .inf neg := by
  have hpos : 2 ^ h * unitsOfOne ≠ 0 := Nat.mul_ne_zero (Nat.two_pow_pos h).ne' unitsOfOne_pos.ne'
  rw [fracPart, f32, f32, mulf_inf_finite _ _ hpos, divf_inf_finite, Bool.xor_false, Bool.xor_false]

/-- The fraction of a NaN is a NaN (R131). -/
theorem fracPart_nan (h : Nat) : fracPart .nan h = .nan := rfl

/-- The split of an infinity: its fraction, or infinity less infinity (R132). -/
theorem emSplit_inf (neg : Bool) (hoe4 : BitVec 4) :
    emSplit (.inf neg) hoe4 = if isEmBigger hoe4 then .inf neg else .nan := by
  rw [emSplit, fracPart_inf, subf_inf_self]

/-- The split of a NaN is a NaN (R132). -/
theorem emSplit_nan (hoe4 : BitVec 4) : emSplit .nan hoe4 = .nan := by
  simp only [emSplit, fracPart_nan, subf, ite_self]

end split

section patternOrder

/-- The pattern of a magnitude as a number, with 2^128 in the place of infinity: the exponent field counts blocks of 2^23,
and the significand, its leading bit included, is added. -/
def patternRank (units : Nat) : Nat := (units.log2 - 23) * 2 ^ 23 + units / 2 ^ (units.log2 - 23)

/-- A significand has at most 24 bits. -/
theorem significand_lt (m : Nat) : m / 2 ^ (m.log2 - 23) < 2 ^ 24 := by
  rw [Nat.div_lt_iff_lt_mul (Nat.two_pow_pos _), ← Nat.pow_add]
  exact lt_of_lt_of_le Nat.lt_log2_self (Nat.pow_le_pow_right (by decide) (by omega))

/-- A significand has no fewer than 24 bits unless the magnitude is subnormal. -/
theorem le_significand {m : Nat} (hm : 2 ^ 23 ≤ m) : 2 ^ 23 ≤ m / 2 ^ (m.log2 - 23) := by
  have hne : m ≠ 0 := by omega
  have hlog := (Nat.le_log2 hne).mpr hm
  rw [Nat.le_div_iff_mul_le (Nat.two_pow_pos _), ← Nat.pow_add, show 23 + (m.log2 - 23) = m.log2 by omega]
  exact Nat.log2_self_le hne

/-- The rank grows with the magnitude: within one exponent by the significand, else by at least one block. -/
theorem patternRank_mono {m n : Nat} (hmn : m ≤ n) : patternRank m ≤ patternRank n := by
  have hlog : m.log2 ≤ n.log2 := by
    rcases Nat.eq_zero_or_pos m with rfl | hpos
    · simp
    · exact (Nat.le_log2 (by omega)).mpr ((Nat.log2_self_le hpos.ne').trans hmn)
  unfold patternRank
  rcases Nat.eq_or_lt_of_le (Nat.sub_le_sub_right hlog 23) with heq | hlt
  · rw [heq]
    exact Nat.add_le_add_left (Nat.div_le_div_right hmn) _
  · have hn : n ≠ 0 := by rintro rfl; simp at hlt
    have hlow := significand_lt m
    have hhigh := le_significand ((Nat.le_log2 hn).mp (by omega))
    generalize n / 2 ^ (n.log2 - 23) = c at *
    omega

/-- The number that a laid-out pattern without a sign bit is. -/
theorem toNat_floatPattern {exponent fraction : Nat} (he : exponent < 2 ^ 8) (hf : fraction < 2 ^ 23) :
    (floatPattern false exponent fraction).toNat = exponent * 2 ^ 23 + fraction := by
  change (BitVec.ofBool false ++ BitVec.ofNat 8 exponent ++ BitVec.ofNat 23 fraction).toNat = _
  rw [BitVec.toNat_append, BitVec.toNat_append, BitVec.toNat_ofNat, BitVec.toNat_ofNat, Nat.mod_eq_of_lt he,
    Nat.mod_eq_of_lt hf, ← Nat.shiftLeft_add_eq_or_of_lt he, ← Nat.shiftLeft_add_eq_or_of_lt hf, Nat.shiftLeft_eq,
    show (BitVec.ofBool false).toNat = 0 from rfl, Nat.zero_shiftLeft, Nat.zero_add]

/-- The pattern of a finite value that is not negative is its rank. -/
theorem toNat_bits32_finite (draw : Nat) {m : Nat} (hm : m < overflowUnits) :
    (bits32 draw (.finite false m)).toNat = patternRank m := by
  rw [overflowUnits_eq] at hm
  simp only [bits32, patternRank]
  split_ifs with hs
  · have hexp : m.log2 - 23 = 0 := by
      rcases Nat.eq_zero_or_pos m with rfl | hpos
      · simp
      · have := (Nat.log2_lt hpos.ne').mpr hs
        omega
    rw [toNat_floatPattern (by decide) hs, hexp, Nat.pow_zero, Nat.div_one]
  · have hlog := (Nat.log2_lt (by omega)).mpr hm
    have hlow := le_significand (Nat.le_of_not_lt hs)
    have hhigh := significand_lt m
    rw [toNat_floatPattern (by omega) (by omega)]
    omega

/-- The pattern of +infinity is the rank of 2^128. -/
theorem toNat_bits32_inf (draw : Nat) : (bits32 draw (.inf false)).toNat = patternRank overflowUnits := by
  rw [patternRank, overflowUnits_eq, Nat.log2_two_pow, Nat.pow_div (by decide) (by decide)]
  exact toNat_floatPattern (by decide) (by decide)

/-- The pattern of a total's fraction, where the total is +0 or positive and finite: the rank of the rounded quotient, or of
2^128 where the product overflows. -/
theorem toNat_bits32_fracPart (draw : Nat) {m : Nat} (hm : Representable m) (h : Nat) :
    (bits32 draw (fracPart (.finite false m) h)).toNat =
      patternRank (if m * 2 ^ h < overflowUnits then roundUnits (m * 2 ^ h) (2 ^ h + 1) else overflowUnits) := by
  split_ifs with hlt
  · rw [fracPart_eq_finite hm false hlt, toNat_bits32_finite draw (fraction_lt_overflow hm h)]
  · rw [fracPart_of_ge hm false hlt, toNat_bits32_inf]

end patternOrder

end Sys2Proof.Machine
end

section
/-! PROOF. HE.FRAC and HE.SPLIT (spec/45_energy_fraction.md R130 to R132, R135). -/

namespace Sys2Proof.Machine

/-- isEmBigger of an H/E field in a word is the field's lowest bit (R71). -/
theorem isEmBigger_slice (w : Word) (off : Nat) : isEmBigger (w.extractLsb' off 4) = w.getLsbD off := by
  simp [isEmBigger]

/-- hoeCode of an H/E field in a word is the three bits above the lowest (R71). -/
theorem hoeCode_slice (w : Word) (off : Nat) :
    hoeCode (w.extractLsb' off 4) = (w.extractLsb' (off + 1) 3).toNat := by
  have hslice : (w.extractLsb' off 4).extractLsb' 1 3 = w.extractLsb' (off + 1) 3 := by
    apply BitVec.eq_of_getLsbD_eq
    intro k hk
    simp [hk, show 1 + k < 4 by omega, Nat.add_assoc]
  rw [hoeCode, hslice]

/-- The fraction of a finite total is written to a port without loss. -/
theorem ofBits_fracPart (draw : Nat) (neg : Bool) (m h : Nat) :
    Binary32.ofBits (bits32 draw (fracPart (.finite neg m) h)) = fracPart (.finite neg m) h :=
  ofBits_bits32_of_isNumber (fracPart_finite_isNumber neg m h) draw

/-- Settles O41, by the kind of the total. -/
theorem heFracResult : Obligations.HeFracResult := by
  intro s q rest hq
  refine ⟨⟨_, exec_heFrac hq, ?_⟩, runsOnlyOn_fieldFree hq (i := .heFrac) (by decide)⟩
  rw [floatA, hoeCodeB]
  dsimp only
  cases htotal : Binary32.ofBits (q.a.extractLsb' 0 32) with
  | nan => exact isNanPattern_nanPattern _
  | inf neg =>
    rw [fracPart_inf]
    exact ofBits_bits32_inf _ neg
  | finite neg m =>
    have hm := representable_of_ofBits htotal
    dsimp only
    rw [ofBits_fracPart]
    split_ifs with hlt
    · exact fracPart_of_lt hm neg hlt
    · exact fracPart_of_ge hm neg hlt

/-- Settles O42, by the kind of the total; a finite total's difference is exact by Sterbenz. -/
theorem heSplitResult : Obligations.HeSplitResult := by
  intro s q rest hq
  refine ⟨⟨_, exec_heSplit hq, ?_⟩, runsOnlyOn_fieldFree hq (i := .heSplit) (by decide)⟩
  rw [floatA, hoeFieldB, ← isEmBigger_slice q.b 0, ← hoeCode_slice q.b 0]
  generalize q.b.extractLsb' 0 4 = hoe4
  dsimp only
  cases htotal : Binary32.ofBits (q.a.extractLsb' 0 32) with
  | nan =>
    rw [emSplit_nan]
    exact isNanPattern_nanPattern _
  | inf neg =>
    dsimp only
    rw [emSplit_inf]
    split
    · exact ofBits_bits32_inf _ neg
    · exact isNanPattern_nanPattern _
  | finite neg m =>
    have hm := representable_of_ofBits htotal
    dsimp only
    rw [ofBits_bits32_of_isNumber (emSplit_finite_isNumber neg m hoe4)]
    by_cases hlt : m * 2 ^ hoeCode hoe4 < overflowUnits
    · rw [if_pos hlt]
      exact ⟨fraction_le hm _, emSplit_of_lt hm hlt⟩
    · rw [if_neg hlt]
      exact emSplit_of_ge hm hlt

/-- Settles O43: an infinity is its own fraction; a finite total's fractions are in order until the product overflows, and
+infinity lies above them all. -/
theorem fractionGrowsWithTheCode : Obligations.FractionGrowsWithTheCode := by
  intro s s' q q' rest rest' hq hq' htotal hsame hcode
  refine ⟨_, _, _, _, exec_heFrac hq, exec_heFrac hq', rfl, rfl, ?_⟩
  rw [floatA, floatA, hsame, hoeCodeB, hoeCodeB]
  obtain ⟨m, htotal⟩ | htotal := htotal
  · have hm := representable_of_ofBits htotal
    rw [htotal, toNat_bits32_fracPart _ hm, toNat_bits32_fracPart _ hm]
    have hproduct := Nat.mul_le_mul_left m (Nat.pow_le_pow_right Nat.two_pos hcode)
    apply patternRank_mono
    split_ifs with hlt hlt' hlt'
    · exact fraction_mono hm hcode
    · exact (fraction_lt_overflow hm _).le
    · exact absurd (hproduct.trans_lt hlt') hlt
    · exact le_rfl
  · rw [htotal, fracPart_inf, fracPart_inf, toNat_bits32_inf, toNat_bits32_inf]

/-- Settles O44: (b) is the fraction at code 0, whose product is the total; (c) is the order of magnitudes carried to the
patterns. -/
theorem fractionHalvesAndIsAtMostTheTotal : Obligations.FractionHalvesAndIsAtMostTheTotal := by
  intro s q rest m hq htotal
  have hm := representable_of_ofBits htotal
  refine ⟨_, _, exec_heFrac hq, rfl, fun hcode => ?_, fun hlt => ?_⟩ <;> rw [floatA, htotal, hoeCodeB]
  · have hlt : m * 2 ^ 0 < overflowUnits := by simpa using hm.1
    have hhalf := fracPart_of_lt hm false hlt
    rw [Nat.pow_zero, Nat.mul_one] at hhalf
    rw [ofBits_fracPart, hcode]
    exact hhalf
  · have htotalPattern : (q.a.extractLsb' 0 32).toNat = patternRank m := by
      rw [← bits32_ofBits s.draws (p := q.a.extractLsb' 0 32) (by rw [htotal]; exact nofun), htotal,
        toNat_bits32_finite _ hm.1]
    rw [toNat_bits32_fracPart _ hm, if_pos hlt, htotalPattern]
    exact patternRank_mono (fraction_le hm _)

end Sys2Proof.Machine
end

section
/-! PROOF. The decoder emulators (spec/45_energy_fraction.md R133, R134): the ports as bit slices, and the split of hwPt. -/

namespace Sys2Proof.Machine

section slices

variable (w : Word) (draw : Nat)

/-- Four times a sign-magnitude field on a 16-bit port (R133). -/
theorem signedPort_four_mul_signMagnitude (off sbp wid : Nat) :
    signedPort 16 (extractSignMagnitude w off sbp wid * 4) =
      some ((if w.getLsbD sbp then (w.extractLsb' off wid).setWidth 16 else -(w.extractLsb' off wid).setWidth 16) * 4) := by
  have hvalue := signedPort_smValue 16 (w.getLsbD sbp) (w.extractLsb' off wid)
  rw [← extractUnsigned_eq, ← extractSignMagnitude, signedPort, Option.some_inj] at hvalue
  rw [signedPort, BitVec.ofInt_mul, hvalue]
  rfl

/-- The ports of EMU.EM as bit slices (R133). -/
theorem emuCommon_eq :
    emuCommon w draw =
      { hwPt := floatPort draw (ptFloat (w.extractLsb' 0 12).toNat)
        hwEta := some ((if w.getLsbD 19 then (w.extractLsb' 12 7).setWidth 16
          else -(w.extractLsb' 12 7).setWidth 16) * 4)
        hwPhi := some ((if w.getLsbD 26 then (w.extractLsb' 20 6).setWidth 16
          else -(w.extractLsb' 20 6).setWidth 16) * 4) } := by
  simp only [emuCommon, signedPort_four_mul_signMagnitude, extractUnsigned_eq]

/-- The H/E field as a bit slice (R71). -/
theorem hoeField_eq : hoeField w = w.extractLsb' 27 4 := by
  rw [hoeField, extractUnsigned_eq, BitVec.ofNat_toNat, BitVec.setWidth_eq]

/-- The ports that EMU.HAD adds to those of EMU.EM, as bit slices (R134). -/
theorem emuHad_eq :
    emuHad w draw =
      { emuCommon w draw with
        isEmBigger := some (w.getLsbD 27)
        hoeCode := some (w.extractLsb' 28 3)
        hwEmPt := floatPort draw (emSplit (ptFloat (w.extractLsb' 0 12).toNat) (w.extractLsb' 27 4)) } := by
  simp only [emuHad, hoeField_eq, isEmBigger_slice, hoeCode_slice, unsignedPort_toNat_self, extractUnsigned_eq]

end slices

/-- Every pt count is a representable number of half units (R69). -/
theorem representable_ptUnits (pt : BitVec 12) : Representable (pt.toNat * 2 ^ 148) := by
  have hnumber := ptFloat_isNumber pt.toNat
  rwa [ptFloat_eq pt.isLt] at hnumber

/-- The product of `pt * 0.5` and `2^h` does not overflow. -/
theorem ptUnits_mul_lt (pt : BitVec 12) {h : Nat} (hh : h < 8) : pt.toNat * 2 ^ 148 * 2 ^ h < overflowUnits := by
  have hpow : 2 ^ h ≤ 2 ^ 8 := Nat.pow_le_pow_right (by decide) hh.le
  calc pt.toNat * 2 ^ 148 * 2 ^ h ≤ 2 ^ 12 * 2 ^ 148 * 2 ^ 8 := Nat.mul_le_mul (Nat.mul_le_mul_right _ pt.isLt.le) hpow
    _ = 2 ^ 168 := by rw [← Nat.pow_add, ← Nat.pow_add]
    _ < overflowUnits := (Nat.pow_lt_pow_right (by decide) (by decide)).trans_eq overflowUnits_eq.symm

/-- `e.hwEmPt` reads as the split of `pt * 0.5`: the rounded fraction, or exactly `pt * 0.5` less it, and never negative
(R134). -/
theorem ofBits_emSplit_ptFloat (draw : Nat) (pt : BitVec 12) (hoe4 : BitVec 4) :
    let m := pt.toNat * 2 ^ 148
    let f := roundUnits (m * 2 ^ hoeCode hoe4) (2 ^ hoeCode hoe4 + 1)
    Binary32.ofBits (bits32 draw (emSplit (ptFloat pt.toNat) hoe4)) =
      .finite false (if isEmBigger hoe4 then f else m - f) := by
  have hcode : hoeCode hoe4 < 8 := BitVec.isLt _
  dsimp only
  rw [ptFloat_eq pt.isLt, ofBits_bits32_of_isNumber (emSplit_finite_isNumber _ _ _),
    emSplit_of_lt (representable_ptUnits pt) (ptUnits_mul_lt pt hcode), Bool.false_and, apply_ite (Binary32.finite false)]

/-- Settles O45: the ports as bit slices, then the decoder's row. -/
theorem emuEmPorts : Obligations.EmuEmPorts := by
  intro s q rest hq
  refine ⟨⟨_, isHalves_ptFloat s.draws _, ?_⟩, runsOnlyOn_fieldFree hq (i := .emuEm) (by decide)⟩
  rw [exec_emuEm hq, emuCommon_eq]
  rfl

/-- Settles O46: the ports are those of EMU.EM and the split of hwPt. -/
theorem emuHadPorts : Obligations.EmuHadPorts := by
  intro s q rest hq
  refine ⟨⟨_, bits32 s.draws (emSplit (ptFloat (q.a.extractLsb' 0 12).toNat) (q.a.extractLsb' 27 4)), exec_emuEm hq,
    fraction_le (representable_ptUnits _) _, ?_, ?_⟩, runsOnlyOn_fieldFree hq (i := .emuHad) (by decide)⟩
  · rw [ofBits_emSplit_ptFloat, isEmBigger_slice, hoeCode_slice]
  · rw [exec_emuHad hq, emuHad_eq]
    rfl

end Sys2Proof.Machine
end

section
/-! SUPPORT and PROOF. The exception IllegalCommand (spec/60_exceptions.md R143, R146): the legality test of R53 on the
command decides which response a request gets. -/

namespace Sys2Proof.Machine

variable {q : Request}

/-- Of a command that decodes, the legality test of R53 is condition (4) on its operation's fields. -/
theorem wellFormed_of_decode {cmd : Command} {i : Instr} (hd : decode cmd = .ok i) : i.wellFormed = legal cmd := by
  rw [← legal_encode, encode_of_decode hd]

/-- A request with a legal command gets an operation's response. -/
theorem responseTo_of_legal (h : legal q.cmd = true) :
    ∃ i, ∀ draw, responseTo q draw = operationResponse i q draw := by
  obtain ⟨i, hd, hwf⟩ := (legalIffDecodesWellFormed q.cmd).mp h
  exact ⟨i, fun draw => by rw [responseTo_of_decode hd, if_pos hwf]⟩

/-- A request with an illegal command gets the IllegalCommand response, whether the decoder rejects the command (conditions
(1) to (3) of R53) or its operation does (condition (4)). -/
theorem responseTo_of_not_legal (h : legal q.cmd = false) (draw : Nat) : responseTo q draw = illegalResponse := by
  cases hd : decode q.cmd with
  | error e => exact responseTo_of_decode_error hd draw
  | ok i => rw [responseTo_of_decode hd, wellFormed_of_decode hd, h, if_neg Bool.false_ne_true]

/-- `out.illegal` of the response to a request is the failure of the legality test on its command (R146). -/
theorem responseTo_illegal (q : Request) (draw : Nat) : (responseTo q draw).illegal = some (!legal q.cmd) := by
  cases h : legal q.cmd with
  | false => rw [responseTo_of_not_legal h, illegalResponse_illegal, Bool.not_false]
  | true =>
    obtain ⟨i, hi⟩ := responseTo_of_legal h
    rw [hi, operationResponse_illegal, Bool.not_true]

/-- Settles O7: the step's answer is the response to the request, which is IllegalCommand's. -/
theorem illegalCommandResponse : Obligations.IllegalCommandResponse := by
  intro s q rest hq hillegal
  rw [step_pending hq, responseTo_of_not_legal hillegal, illegalResponse]

/-- Settles O8: the step's answer is the response to the request, whose illegal bit is that of its command. -/
theorem illegalBitIsTheLegalityTest : Obligations.IllegalBitIsTheLegalityTest :=
  fun s q _ hq => ⟨responseTo q s.draws, step_pending hq, responseTo_illegal q s.draws⟩

end Sys2Proof.Machine
end

section
/-! SUPPORT and PROOF. Runs of the block, and requests in flight over them (spec/10_state.md R20, R24,
spec/70_reset_and_hazards.md R161, R165). -/

namespace Sys2Proof.Machine

variable {s t : State} {q : Request}

/-- A run goes on from the state that its first steps reach. -/
theorem run_add {m : Nat} (h : core.run m s = .next t) (n : Nat) : core.run (m + n) s = core.run n t := by
  induction m generalizing s with
  | zero => cases h; rw [Nat.zero_add]
  | succ m ih =>
    obtain ⟨u, hu⟩ := exists_step_eq_next s
    rw [run_next hu] at h
    rw [Nat.add_right_comm, run_next hu, ih h]

/-- With no request in flight a run of any length changes nothing (log 3). -/
theorem run_idle (h : s.inFlight = []) (k : Nat) : core.run k s = .next s := by
  induction k with
  | zero => rfl
  | succ k ih => rw [run_next (step_idle h), ih]

/-- A run that ends with the answer to the request at place `j`: that request and those before it have left, and the ports
hold the response it would get alone, as the `j`-th from the present draw index. -/
theorem run_succ_pending {j : Nat} (h : s.inFlight[j]? = some q) :
    core.run (j + 1) s = .next ⟨s.inFlight.drop (j + 1), responseTo q (s.draws + j), s.draws + (j + 1)⟩ := by
  induction j generalizing s with
  | zero =>
    obtain ⟨rest, hs⟩ := List.head?_eq_some_iff.mp (List.head?_eq_getElem?.trans h)
    rw [run_next (step_pending hs), hs]
    rfl
  | succ j ih =>
    cases hs : s.inFlight with
    | nil => simp [hs] at h
    | cons oldest rest =>
      rw [hs, List.getElem?_cons_succ] at h
      rw [run_next (step_pending hs), ih h, answered_inFlight, answered_draws, List.drop_succ_cons,
        Nat.add_right_comm s.draws 1 j, Nat.add_right_comm s.draws 1 (j + 1)]
      rfl

/-- A run of at most as many steps as there are requests in flight answers that many of them, and moves the draw index on as
far. -/
theorem exists_run_of_le_length {k : Nat} (h : k ≤ s.inFlight.length) :
    ∃ t : State, core.run k s = .next t ∧ t.inFlight = s.inFlight.drop k ∧ t.draws = s.draws + k ∧
      ∀ j q, k = j + 1 → s.inFlight[j]? = some q → t.out = responseTo q (s.draws + j) := by
  cases k with
  | zero => exact ⟨s, rfl, rfl, rfl, fun j _ hj => absurd hj j.succ_ne_zero.symm⟩
  | succ j =>
    have hj := List.getElem?_eq_getElem h
    refine ⟨_, run_succ_pending hj, rfl, rfl, fun j' q hk hq => ?_⟩
    cases hk
    rw [Option.some.inj (hj.symm.trans hq)]

/-- Once every request in flight is answered, further steps change nothing. -/
theorem run_of_length_le {k : Nat} (h : s.inFlight.length ≤ k) : core.run k s = core.run s.inFlight.length s := by
  obtain ⟨t, hrun, hempty, -⟩ := exists_run_of_le_length (le_refl s.inFlight.length)
  rw [List.drop_length] at hempty
  obtain ⟨n, rfl⟩ := Nat.exists_eq_add_of_le h
  rw [run_add hrun, run_idle hempty, hrun]

/-- A request presented behind another one waits: the answer to the oldest and the presenting commute. -/
theorem step_present (hne : s.inFlight ≠ []) (h : step s = .next t) (q : Request) :
    step (s.present q) = .next (t.present q) := by
  obtain ⟨hempty, -⟩ | ⟨oldest, rest, hs, rfl⟩ := step_cases h
  · exact absurd hempty hne
  · have hpresent : (s.present q).inFlight = oldest :: (rest ++ [q]) := by
      rw [present_inFlight, hs, List.cons_append]
    rw [step_pending hpresent, present_draws]
    rfl

/-- Settles O11: reset leaves no request to answer, and no port a value for the idle steps to keep. -/
theorem resetDropsRequestsInFlight : Obligations.ResetDropsRequestsInFlight :=
  fun s k => ⟨s.resetSignal, run_idle (resetSignal_inFlight s) k, resetSignal_inFlight s,
    fun p => readPort_eq_error.mpr (read_empty p)⟩

/-- Settles O49: a run answers request after request, and is idle after the last. -/
theorem responsesComeInRequestOrder : Obligations.ResponsesComeInRequestOrder :=
  fun _ _ => ⟨exists_run_of_le_length, run_of_length_le⟩

/-- Settles O50: the step is total, and commutes with the presenting of a request. -/
theorem presentedRequestsWaitTheirTurn : Obligations.PresentedRequestsWaitTheirTurn := by
  intro s q hne
  obtain ⟨t, ht⟩ := exists_step_eq_next s
  exact ⟨t, ht, step_present hne ht q⟩

end Sys2Proof.Machine
end
